-- ==== Sys2Proof/Word.lean ====
section
/-! DEFINITION. The word types of the block: the byte of the scratch buffer and of every request field, the 40-bit
request and response word (spec/30_encoding.md R42, R45) and the 32-bit response data (R45). -/

namespace Sys2Proof

/-- One byte: a scratch byte (R11), a request field (R42), a link byte (R52). Bit 0 is the least significant (R7). -/
abbrev Byte := BitVec 8

/-- A request word `W` (R42) or a response word `RESP` (R45): 40 bits. -/
abbrev Word40 := BitVec 40

/-- The `DATA` field of a response (R45): 32 bits. -/
abbrev Data := BitVec 32

end Sys2Proof
end

