-- ==== Sys2Proof/Config.lean ====
section
/-! DEFINITION. What is fixed for a block: the display geometry (spec/00_scope.md R5), the capacity parameter `CAP`
(R5, R6), and the values the spec leaves free: the bytes of `SCR` after a reset (spec/10_state.md R21) and, outside the
block, where a controller puts data beyond its window (spec/44_glyph_composition.md R91). -/

namespace Sys2Proof

/-- `GLYPH_BITS` (R5): bits in one GlyphColumn. -/
abbrev Config.glyphBits : Nat := 8

/-- `PAGE_HEIGHT` (R5): vertical pixels per native page. -/
abbrev Config.pageHeight : Nat := 8

/-- `NUM_PAGES` (R5): native pages, and logical rows, indexed 0..7. -/
abbrev Config.numPages : Nat := 8

/-- `NUM_COLUMNS` (R5): native columns, indexed 0..127. -/
abbrev Config.numColumns : Nat := 128

/-- The construction-time parameters of one block. A model "takes `CAP` as an argument" (R5): every statement is about
every value of this field. DESIGN CHOICE (log 1): it is carried beside the state, and no step changes it (R22). -/
structure Config where
  /-- `CAP`: scratch capacity in bytes, and the largest accepted magnification factor (R6). -/
  cap : Nat
  deriving DecidableEq, Repr

/-- `1 ≤ CAP ≤ 8` (R5, R6). -/
abbrev Config.valid (c : Config) : Prop := 1 ≤ c.cap ∧ c.cap ≤ Config.numPages

/-- The spec's default capacity (R5, R6). -/
def Config.standard : Config where cap := 4

/-- The reference implementation's capacity (R5, R6). -/
def Config.reference : Config where cap := 2

/-- FREE VALUE: `scrAfterReset n a` is the byte `SCR[a]` holds after the `n`-th reset event, which the spec leaves
unspecified (R21, R110, item I6). It has no body: nothing can be proved of its value (log 3). -/
opaque Config.scrAfterReset : Nat → Nat → Byte

/-- FREE VALUE: the column and page on which an external controller puts a data byte that comes after its window is full,
from the window's column start and end, its page start and end, and the bytes it has taken. No source says (R91; log 17).
It has no body, and the block does not use it. -/
opaque Config.placeBeyondWindow : Nat → Nat → Nat → Nat → Nat → Nat × Nat

end Sys2Proof
end

