-- ==== Sys2Proof/Syntax.lean ====
section
/-! DEFINITION. The six request operations of spec/30_encoding.md R43, R47 as syntax: one constructor per row of
spec/opcode_table.json. A GlyphColumn is a pattern of bits; every other operand is an unsigned integer read from its
8-bit field (R44), on which the spec computes in unbounded naturals (R7). -/

namespace Sys2Proof

/-- A decoded request (R43). -/
inductive Instr where
  /-- `SCALE g, f`: magnify GlyphColumn `g` by factor `f` (R58). -/
  | scale (g : Byte) (f : Nat)
  /-- `XLATE rs, re, cs, ce`: translate a logical cursor rectangle (R70). -/
  | xlate (rowStart rowEnd columnStart columnEnd : Nat)
  /-- `RDSCR i`: read the scratch byte of index `i` (R80). -/
  | rdscr (i : Nat)
  /-- `RDWIRE k`: read the `k`-th scratch byte in wire order (R81). -/
  | rdwire (k : Nat)
  /-- `RDLEN`: read `SLEN` (R82). -/
  | rdlen
  /-- `RDCAP`: read `CAP` (R83). -/
  | rdcap
  deriving DecidableEq, Repr

/-- The operation a request selects: the rows of the opcode map (R47). -/
inductive Op where
  | scale | xlate | rdscr | rdwire | rdlen | rdcap
  deriving DecidableEq, Repr

/-- The operation of an instruction. -/
def Instr.op : Instr → Op
  | .scale _ _ => .scale
  | .xlate _ _ _ _ => .xlate
  | .rdscr _ => .rdscr
  | .rdwire _ => .rdwire
  | .rdlen => .rdlen
  | .rdcap => .rdcap

end Sys2Proof
end

