-- ==== Sys2Proof/WellFormed.lean ====
section
/-! DEFINITION. Which instructions a request word can carry: every operand is an 8-bit field "read as an unsigned integer
`0..255`" (spec/30_encoding.md R44), and a value outside `0..255` cannot be presented at all (decision D2). Values an
operation refuses (a factor above `CAP`, a row above 7) ARE well-formed: refusal is the block's (R44, R53). -/

namespace Sys2Proof

/-- The value fits one 8-bit operand field (R44). -/
def fieldOk (n : Nat) : Bool := decide (n < 256)

/-- Every operand of the instruction fits its field. -/
def Instr.wf : Instr → Bool
  | .scale _ f => fieldOk f
  | .xlate rs re cs ce => fieldOk rs && fieldOk re && fieldOk cs && fieldOk ce
  | .rdscr i => fieldOk i
  | .rdwire k => fieldOk k
  | .rdlen => true
  | .rdcap => true

end Sys2Proof
end

