-- ==== Sys2Proof/Decode.lean ====
section
/-! DEFINITION. Decoding and encoding of request words (spec/30_encoding.md R42 to R52): the match/mask table, the
total decoder with a name for each rejection, the encoder, and the byte order of a word on a byte-wide link. -/

namespace Sys2Proof

/-! ### Fields (R42) -/

/-- `OPC = W[39:32]`. -/
def fieldOpc (w : Word40) : Byte := w.extractLsb' 32 8
/-- `A = W[31:24]`. -/
def fieldA (w : Word40) : Byte := w.extractLsb' 24 8
/-- `B = W[23:16]`. -/
def fieldB (w : Word40) : Byte := w.extractLsb' 16 8
/-- `C = W[15:8]`. -/
def fieldC (w : Word40) : Byte := w.extractLsb' 8 8
/-- `D = W[7:0]`. -/
def fieldD (w : Word40) : Byte := w.extractLsb' 0 8

/-- The word `{OPC, A, B, C, D}`, the first-named field most significant (R7, R42). -/
def packWord (opc a b c d : Byte) : Word40 := opc ++ a ++ b ++ c ++ d

/-! ### The opcode map (R47, R48) -/

/-- The operation code of an operation (R47). -/
def Op.opcode : Op → Byte
  | .scale => 0x01
  | .xlate => 0x02
  | .rdscr => 0x03
  | .rdwire => 0x04
  | .rdlen => 0x05
  | .rdcap => 0x06

/-- The `match` column of R48. -/
def Op.matchBits : Op → Word40
  | .scale => 0x0100000000
  | .xlate => 0x0200000000
  | .rdscr => 0x0300000000
  | .rdwire => 0x0400000000
  | .rdlen => 0x0500000000
  | .rdcap => 0x0600000000

/-- The `mask` column of R48. -/
def Op.maskBits : Op → Word40
  | .scale => 0xFF0000FFFF
  | .xlate => 0xFF00000000
  | .rdscr => 0xFF00FFFFFF
  | .rdwire => 0xFF00FFFFFF
  | .rdlen => 0xFFFFFFFFFF
  | .rdcap => 0xFFFFFFFFFF

/-- The rows of the table, in its order. -/
def Op.all : List Op := [.scale, .xlate, .rdscr, .rdwire, .rdlen, .rdcap]

/-- `W` selects operation `op` iff `(W & mask(op)) = match(op)` (R48). -/
def Op.selects (op : Op) (w : Word40) : Bool := w &&& op.maskBits == op.matchBits

/-- The instruction of a word that selects `op`: its operands are the fields themselves (R43, R44). -/
def Op.operands (op : Op) (w : Word40) : Instr :=
  match op with
  | .scale => .scale (fieldA w) (fieldB w).toNat
  | .xlate => .xlate (fieldA w).toNat (fieldB w).toNat (fieldC w).toNat (fieldD w).toNat
  | .rdscr => .rdscr (fieldA w).toNat
  | .rdwire => .rdwire (fieldA w).toNat
  | .rdlen => .rdlen
  | .rdcap => .rdcap

/-- Why a word, or a run of link bytes, is no request. -/
inductive Illegal where
  /-- `OPC` is `0x00` or `0x07`–`0xFF` (R47, R49). -/
  | unassignedOpcode (opc : Byte)
  /-- `OPC` is assigned and a "reserved, 0" field is nonzero (R48, R49). -/
  | reservedField (op : Op)
  /-- Fewer than five bytes on the link: not yet a request word (R52). -/
  | truncated (bytes : Nat)
  deriving DecidableEq, Repr

/-- Why a word that matches no row is illegal (R49). -/
def illegalReason (w : Word40) : Illegal :=
  match Op.all.find? (fun op => op.opcode == fieldOpc w) with
  | some op => .reservedField op
  | none => .unassignedOpcode (fieldOpc w)

/-- `decode : Bits40 -> Op ∪ {Illegal}`, defined for all words (R51). -/
def decode (w : Word40) : Except Illegal Instr :=
  match Op.all.find? (fun op => op.selects w) with
  | some op => .ok (op.operands w)
  | none => .error (illegalReason w)

/-! ### Encoding (R43, R53) -/

/-- The request word of an instruction (the encodings of R53). A well-formed operand fits its field exactly. -/
def encode : Instr → Word40
  | .scale g f => packWord 0x01 g (BitVec.ofNat 8 f) 0x00 0x00
  | .xlate rs re cs ce =>
      packWord 0x02 (BitVec.ofNat 8 rs) (BitVec.ofNat 8 re) (BitVec.ofNat 8 cs) (BitVec.ofNat 8 ce)
  | .rdscr i => packWord 0x03 (BitVec.ofNat 8 i) 0x00 0x00 0x00
  | .rdwire k => packWord 0x04 (BitVec.ofNat 8 k) 0x00 0x00 0x00
  | .rdlen => packWord 0x05 0x00 0x00 0x00 0x00
  | .rdcap => packWord 0x06 0x00 0x00 0x00 0x00

/-! ### Words on a byte-wide link (R52) -/

/-- The five bytes of a word, most significant first: byte 0 is `W[39:32]`, byte 4 is `W[7:0]` (R52). -/
def linkBytes (w : Word40) : List Byte := [fieldOpc w, fieldA w, fieldB w, fieldC w, fieldD w]

/-- The word whose five bytes come first on the link, and the bytes after it (R52). -/
def linkWord : List Byte → Option (Word40 × List Byte)
  | b0 :: b1 :: b2 :: b3 :: b4 :: rest => some (packWord b0 b1 b2 b3 b4, rest)
  | _ => none

/-- Decoding from link bytes, total on any bytes: the instruction and the bytes after it. -/
def decodeLink (bytes : List Byte) : Except Illegal (Instr × List Byte) :=
  match linkWord bytes with
  | none => .error (.truncated bytes.length)
  | some (w, rest) =>
    match decode w with
    | .ok i => .ok (i, rest)
    | .error e => .error e

/-! ### The opcode table's numbering -/

/-- The request word whose table bits are `w`: a row is one 40-bit word, bit 0 the least significant of the word, and
every bit above `nbits` is 0. -/
def tableWord (nbits w : Nat) : Word40 := BitVec.ofNat 40 (w % 2 ^ nbits)

/-- What the decoder reads from a word given in the opcode table's numbering. The word is laid out as a link carries it,
most significant byte first (R52). -/
def decodeTableWord (nbits w : Nat) : Option Instr :=
  match decodeLink (linkBytes (tableWord nbits w)) with
  | .ok (i, _) => some i
  | .error _ => none

end Sys2Proof
end

