-- ==== Sys2Proof/Machine/State.lean ====
section
/-! DEFINITION. The state of the block (spec/10_state.md), its responses (spec/30_encoding.md R45), what the host may
present to it (spec/70_reset_and_hazards.md R120), why a step can stop, and the state after reset (R21, R110). -/

namespace Sys2Proof.Machine

/-- The `STATUS` of a response (R94). Codes `0x06`–`0xFF` are never produced, so they have no constructor. -/
inductive Status where
  | ok
  | capacityExceeded
  | outOfBounds
  | invalidFactor
  | invalidIndex
  | illegalOperation
  deriving DecidableEq, Repr

/-- One response (R45): a status and 32 bits of data. -/
structure Response where
  status : Status
  data : Data
  deriving DecidableEq, Repr

/-- What the host does to the block: present a request word, or reset it between requests (R110, R120). -/
inductive Event where
  | request (w : Word40)
  | reset
  deriving DecidableEq, Repr

/-- CursorRect (R19): a rectangle in logical text space, both ends inclusive. -/
structure CursorRect where
  rowStart : Nat
  rowEnd : Nat
  columnStart : Nat
  columnEnd : Nat
  deriving DecidableEq, Repr

/-- NativeWindow (R19): a window in controller space, both ends inclusive. -/
structure NativeWindow where
  columnStart : Nat
  columnEnd : Nat
  pageStart : Nat
  pageEnd : Nat
  deriving DecidableEq, Repr

/-- The scratch space as data: the bytes that differ from `0x00`, by rising address. Canonical form: `Memory.wf`. -/
abbrev Memory := List Host.Cell

/-- The whole state. `scr` and `slen` are the architectural state of R10; `cfg` is the parameter `CAP` (R22);
`inputs`, `responses` and `draws` are the model's own (log 3, 4, 5). -/
structure State where
  /-- The construction-time parameter `CAP`: no step changes it (R22; log 1). -/
  cfg : Config
  /-- `SCR`, the scratch buffer (R11, R23). -/
  scr : Memory
  /-- `SLEN`, the number of valid bytes in `SCR` (R12). -/
  slen : Nat
  /-- MODEL: what the host has yet to present, in the order it will (R37, R120; log 4). -/
  inputs : List Event
  /-- MODEL: the responses delivered so far, oldest first (R120; log 5). -/
  responses : List Response
  /-- MODEL: how many reset events have drawn free bytes for `SCR` (R21; log 3). -/
  draws : Nat
  deriving DecidableEq, Repr

/-- Why a step stops with a fault. -/
inductive Fault where
  /-- Raised by the model's scratch read and write (`memRead`, `memWrite`) on an address at or above `CAP`, which "name
  nothing" (R23, R35). SAFE: the block has no such access; from a state that satisfies the invariant none is made. -/
  | noScratchByte (a : Nat)
  deriving DecidableEq, Repr

/-- Why a step has no meaning. -/
inductive Refusal where
  /-- Raised by an arm of `exec` for an instruction without a meaning. SAFE: the machine stops. No arm raises it. -/
  | notModelled (mnemonic : String)
  deriving DecidableEq, Repr

/-- The state after reset of a block built with parameters `c`: `SLEN = 0` (R21, R110); `SCR` is unspecified (R21),
DESIGN CHOICE here: every byte `0x00` (log 2); nothing presented or delivered (DESIGN CHOICE, log 4, log 5), no draw yet
(DESIGN CHOICE, log 3). -/
def State.resetWith (c : Config) : State where
  cfg := c
  scr := []
  slen := 0
  inputs := []
  responses := []
  draws := 0

/-- The state after reset of the block with the spec's default capacity, `CAP = 4` (R6; DESIGN CHOICE, log 1). -/
def State.reset : State := State.resetWith Config.standard

end Sys2Proof.Machine
end

