-- ==== Sys2Proof/Machine/Flags.lean ====
section
/-! DEFINITION. The outcome of a request. The block has no stored flags (spec/10_state.md R16): its only condition code is
the `STATUS` of a response. Here are the status codes (spec/60_exceptions.md R94) and the response word (R45, R52). -/

namespace Sys2Proof.Machine

/-- The code of a status (R94). -/
def Status.code : Status → Byte
  | .ok => 0x00
  | .capacityExceeded => 0x01
  | .outOfBounds => 0x02
  | .invalidFactor => 0x03
  | .invalidIndex => 0x04
  | .illegalOperation => 0x05

/-- The status of a code; the codes `0x06`–`0xFF` are never produced (R94). -/
def Status.ofCode (c : Byte) : Option Status :=
  [Status.ok, .capacityExceeded, .outOfBounds, .invalidFactor, .invalidIndex, .illegalOperation].find? (·.code == c)

/-- The response word `RESP`: `RESP[39:32] = STATUS`, `RESP[31:0] = DATA` (R45). -/
def Response.word (r : Response) : Word40 := r.status.code ++ r.data

/-- Reading a response word: none when its status code is one the block never produces (R94, item I10). -/
def Response.ofWord (w : Word40) : Option Response :=
  match Status.ofCode (w.extractLsb' 32 8) with
  | some st => some ⟨st, w.extractLsb' 0 32⟩
  | none => none

/-- The five bytes of a response on a byte-wide link, `STATUS` first (R52). -/
def Response.link (r : Response) : List Byte := linkBytes r.word

end Sys2Proof.Machine
end

