-- ==== Sys2Proof/Machine/Operands.lean ====
section
/-! DEFINITION. The operand values the operations accept, and the widths results are narrowed to: nothing is clamped or
wrapped (spec/30_encoding.md R44); every narrowing the spec makes is here. -/

namespace Sys2Proof.Machine

/-- `zext_32` of an unsigned value that fits 32 bits (R7). -/
def zext32 (n : Nat) : Data := BitVec.ofNat 32 n

/-- `zext_32` of a scratch byte (R80, R81). -/
def zextByte (b : Byte) : Data := b.zeroExtend 32

/-- Four byte-wide values in one `DATA`, the first-named in the most significant byte (R30, R46). -/
def packData (a b c d : Nat) : Data :=
  BitVec.ofNat 8 a ++ BitVec.ofNat 8 b ++ BitVec.ofNat 8 c ++ BitVec.ofNat 8 d

/-- The byte whose bit `b` is `bit b`, bit 0 least significant (R7). -/
def byteOfBits (bit : Nat → Bool) : Byte :=
  BitVec.ofBool (bit 7) ++ BitVec.ofBool (bit 6) ++ BitVec.ofBool (bit 5) ++ BitVec.ofBool (bit 4) ++
    BitVec.ofBool (bit 3) ++ BitVec.ofBool (bit 2) ++ BitVec.ofBool (bit 1) ++ BitVec.ofBool (bit 0)

/-- The error SCALE answers a factor with, if any: first `InvalidFactor`, then `CapacityExceeded` (R59, R60, R97). -/
def factorError (c : Config) (f : Nat) : Option Status :=
  if f = 0 then some .invalidFactor
  else if c.cap < f then some .capacityExceeded
  else none

/-- XLATE accepts a rectangle iff `rs ≤ re ≤ 7` and `cs ≤ ce ≤ 127` (R70, R71). -/
def CursorRect.inBounds (r : CursorRect) : Bool :=
  decide (r.rowStart ≤ r.rowEnd ∧ r.rowEnd ≤ Config.numPages - 1 ∧
    r.columnStart ≤ r.columnEnd ∧ r.columnEnd ≤ Config.numColumns - 1)

/-- The error RDSCR and RDWIRE answer an index with, if any (R80, R81). -/
def indexError (slen i : Nat) : Option Status :=
  if slen ≤ i then some .invalidIndex else none

end Sys2Proof.Machine
end

