-- ==== Sys2Proof/Machine/Ops.lean ====
section
/-! DEFINITION. The operations every request is made of: the scratch memory (spec/20_memory.md R23, R32), the response
(spec/00_scope.md R8 `respond`), an error (`raise`, spec/60_exceptions.md R96: the block's whole exception mechanism, from
which there is no return because nothing was entered, R99, R100), taking the next input, and reset
(spec/70_reset_and_hazards.md R110). -/

namespace Sys2Proof.Machine

/-! ### The scratch space as a canonical list of cells -/

/-- The byte at an address. What is not listed reads `0x00` (log 2). -/
def Memory.read : Memory → Nat → Byte
  | [], _ => 0
  | (k, v) :: m, a => if k = a then v else Memory.read m a

/-- The cells after a byte is written; a `0x00` is not listed. -/
def Memory.write : Memory → Nat → Byte → Memory
  | [], a, v => if v = 0 then [] else [(a, v)]
  | (k, x) :: m, a, v =>
    if a < k then (if v = 0 then (k, x) :: m else (a, v) :: (k, x) :: m)
    else if a = k then (if v = 0 then m else (a, v) :: m)
    else (k, x) :: Memory.write m a v

/-- Canonical form: addresses strictly rising, no listed `0x00`. -/
def Memory.wf : Memory → Bool
  | [] => true
  | (k, v) :: m => v != 0 && m.all (fun c => decide (k < c.1)) && Memory.wf m

/-- Every listed address is below `cap`: the scratch space has the addresses `0..CAP-1` only (R23, R35). -/
def Memory.inRange (m : Memory) (cap : Nat) : Bool := m.all (fun c => decide (c.1 < cap))

/-- Every byte of the scratch space `0x00`: nothing is listed (R62). -/
def Memory.cleared : Memory := []

/-- The cells that hold the bytes `v 0 .. v (n-1)` at the addresses `0 .. n-1`. -/
def Memory.fill (n : Nat) (v : Nat → Byte) : Memory :=
  (List.range n).foldl (fun m a => Memory.write m a (v a)) Memory.cleared

/-! ### Updates of the state -/

/-- `SCR` replaced. -/
def State.setScr (s : State) (m : Memory) : State := { s with scr := m }

/-- `SLEN <- n`. -/
def State.setSlen (s : State) (n : Nat) : State := { s with slen := n }

/-- One response delivered (R45). -/
def State.deliver (s : State) (r : Response) : State := { s with responses := s.responses ++ [r] }

/-- The inputs still to come after the next one is taken. -/
def State.setInputs (s : State) (es : List Event) : State := { s with inputs := es }

/-! ### Memory accesses (R8) -/

/-- `MemRead(a, 1)`: one byte; an address at or above `CAP` names nothing (R23, R32, R35; log 7). -/
def memRead (s : State) (a : Nat) : Except Fault Byte :=
  if a < s.cfg.cap then .ok (Memory.read s.scr a) else .error (.noScratchByte a)

/-- `MemWrite(a, 1, v)`: one byte; an address at or above `CAP` names nothing (R23, R35; log 7). -/
def memWrite (s : State) (a : Nat) (v : Byte) : Except Fault State :=
  if a < s.cfg.cap then .ok (s.setScr (Memory.write s.scr a v)) else .error (.noScratchByte a)

/-- Bytes written one after another from address `a` up. -/
def memWriteAll (s : State) (a : Nat) : List Byte → Except Fault State
  | [] => .ok s
  | v :: vs =>
    match memWrite s a v with
    | .ok t => memWriteAll t (a + 1) vs
    | .error e => .error e

/-- `for i in 0 .. CAP-1: SCR[i] <- 0x00` (R58, R62). -/
def clearScratch (s : State) : State := s.setScr Memory.cleared

/-! ### Completing a request -/

/-- `respond(STATUS, DATA)` (R8, R45). -/
def respond (st : Status) (d : Data) (s : State) : Host.Outcome State Fault Refusal :=
  .next (s.deliver ⟨st, d⟩)

/-- `raise <Error>()`: `respond(code(<Error>), 0)` and no change to `SCR` or `SLEN` (R8, R96). -/
def raiseError (e : Status) (s : State) : Host.Outcome State Fault Refusal := respond e 0 s

/-- A word that matches no operation: `respond(IllegalOperation, 0)`; no state changes (R49). -/
def illegalWord (s : State) : Host.Outcome State Fault Refusal := raiseError .illegalOperation s

/-- `respond(OK, zext_32(MemRead(a, 1)))` (R80, R81). -/
def respondByte (a : Nat) (s : State) : Host.Outcome State Fault Refusal :=
  match memRead s a with
  | .ok v => respond .ok (zextByte v) s
  | .error e => .fault e

/-! ### Inputs and reset -/

/-- What the block finds when it is ready: nothing presented, a request word, or a reset (R111, R120). -/
inductive Arrival where
  | idle
  | request (w : Word40) (s : State)
  | reset (s : State)
  deriving DecidableEq, Repr

/-- The host's next input is taken, in the order of presentation (R37). -/
def nextArrival (s : State) : Arrival :=
  match s.inputs with
  | [] => .idle
  | .request w :: es => .request w (s.setInputs es)
  | .reset :: es => .reset (s.setInputs es)

/-- Reset: `SLEN <- 0`; `SCR` keeps or takes unspecified bytes, free values here; `CAP` unchanged (R21, R110; log 3). -/
def applyReset (s : State) : State :=
  { s with
    scr := Memory.fill s.cfg.cap (Config.scrAfterReset s.draws)
    slen := 0
    draws := s.draws + 1 }

end Sys2Proof.Machine
end

