-- ==== Sys2Proof/Machine/Readback.lean ====
section
/-! DEFINITION. Scratch readback and queries (spec/43_scratch_readback.md): RDSCR, RDWIRE, RDLEN, RDCAP. None of them
changes `SCR` or `SLEN`. -/

namespace Sys2Proof.Machine

/-- RDSCR (R80): scratch byte `i`, refused at or above `SLEN`. -/
def execRdscr (i : Nat) (s : State) : Host.Outcome State Fault Refusal :=
  match indexError s.slen i with
  | some e => raiseError e s
  | none => respondByte i s

/-- RDWIRE (R81): wire byte `k` is `SCR[SLEN-1-k]`, refused at or above `SLEN`. -/
def execRdwire (k : Nat) (s : State) : Host.Outcome State Fault Refusal :=
  match indexError s.slen k with
  | some e => raiseError e s
  | none => respondByte (s.slen - 1 - k) s

/-- RDLEN (R82). -/
def execRdlen (s : State) : Host.Outcome State Fault Refusal := respond .ok (zext32 s.slen) s

/-- RDCAP (R83). -/
def execRdcap (s : State) : Host.Outcome State Fault Refusal := respond .ok (zext32 s.cfg.cap) s

end Sys2Proof.Machine
end

