-- ==== Sys2Proof/Machine/Scaler.lean ====
section
/-! DEFINITION. The Scaler (spec/41_scaler.md): the pure function `Scale(g, f)` (R56), the source's sequential walk (R68),
and the meaning of SCALE (R58). -/

namespace Sys2Proof.Machine

/-- Pixel `y` of the magnified column copies source pixel `y div f` (R56). -/
def magnifiedPixel (g : Byte) (f y : Nat) : Bool := g.getLsbD (y / f)

/-- Byte `i` of `Scale(g, f)`: bit `b` is magnified pixel `8*i + b` (R27, R56). -/
def scaledByte (g : Byte) (f i : Nat) : Byte := byteOfBits (fun b => magnifiedPixel g f (8 * i + b))

/-- `Scale(g, f)`: `f` bytes, the top stride first (R27, R56, R57; reading L of C4, log 10). -/
def scaleColumn (g : Byte) (f : Nat) : List Byte := (List.range f).map (scaledByte g f)

/-- `popcount` of a byte: the number of its 1 bits (R7). -/
def popcount (b : Byte) : Nat := (List.range 8).countP (fun i => b.getLsbD i)

/-- `popcount` of a byte sequence: the sum over its bytes (R7). -/
def popcountAll (bs : List Byte) : Nat := (bs.map popcount).sum

/-- One bit of a byte set to `v`. -/
def setBit (b : Byte) (i : Nat) (v : Bool) : Byte := byteOfBits (fun j => if j = i then v else b.getLsbD j)

/-- The output bit stream of the sequential walk: source bits 7 down to 0, each replicated `f` times (R68). -/
def walkStream (g : Byte) (f : Nat) : List Bool :=
  (List.range 8).reverse.flatMap (fun k => List.replicate f (g.getLsbD k))

/-- One output bit of the walk is written at the cursor, which then goes down by one (R68). -/
def walkWrite (st : Nat × List Byte) (v : Bool) : Nat × List Byte :=
  (st.1 - 1, st.2.modify (st.1 / 8) (fun b => setBit b (st.1 % 8) v))

/-- The source's sequential description (R68): from a cleared buffer of `f` bytes, the cursor starting at `8f-1`. -/
def walkColumn (g : Byte) (f : Nat) : List Byte :=
  ((walkStream g f).foldl walkWrite (8 * f - 1, List.replicate f 0)).2

/-- SCALE (R58): check the factor (R59, R60), clear (R62), write `Scale(g, f)`, set `SLEN`, answer `f`. -/
def execScale (g : Byte) (f : Nat) (s : State) : Host.Outcome State Fault Refusal :=
  match factorError s.cfg f with
  | some e => raiseError e s
  | none =>
    match memWriteAll (clearScratch s) 0 (scaleColumn g f) with
    | .ok t => respond .ok (zext32 f) (t.setSlen f)
    | .error e => .fault e

end Sys2Proof.Machine
end

