-- ==== Sys2Proof/Machine/Translator.lean ====
section
/-! DEFINITION. The AddressTranslator (spec/42_address_translator.md): the named coordinate transform (R73), the pure
function from a logical rectangle to a native window (R70 to R74), and the meaning of XLATE. -/

namespace Sys2Proof.Machine

/-- The row axis is mirrored: `(NUM_PAGES - 1) - r`, defined for `0 ≤ r ≤ 7` (R73). -/
def logicalRowToNativePage (r : Nat) : Nat := (Config.numPages - 1) - r

/-- The window of an accepted rectangle: columns pass through (R72), rows mirror and their ends swap (R73, R74). -/
def nativeWindow (r : CursorRect) : NativeWindow where
  columnStart := r.columnStart
  columnEnd := r.columnEnd
  pageStart := logicalRowToNativePage r.rowEnd
  pageEnd := logicalRowToNativePage r.rowStart

/-- `toNativeWindow` (R70): none stands for `OutOfBounds` (R71). -/
def toNativeWindow (r : CursorRect) : Option NativeWindow :=
  if r.inBounds then some (nativeWindow r) else none

/-- The window packed into `DATA`: `{columnStart, columnEnd, pageStart, pageEnd}` (R46). -/
def NativeWindow.data (w : NativeWindow) : Data := packData w.columnStart w.columnEnd w.pageStart w.pageEnd

/-- XLATE (R70): translate and validate; no state is read or written (R79). -/
def execXlate (rowStart rowEnd columnStart columnEnd : Nat) (s : State) : Host.Outcome State Fault Refusal :=
  match toNativeWindow ⟨rowStart, rowEnd, columnStart, columnEnd⟩ with
  | some w => respond .ok w.data s
  | none => raiseError .outOfBounds s

end Sys2Proof.Machine
end

