-- ==== Sys2Proof/Machine/Dispatch.lean ====
section
/-! DEFINITION. One arm per operation of spec/opcode_table.json. -/

namespace Sys2Proof.Machine

def exec (i : Instr) (s : State) : Host.Outcome State Fault Refusal :=
  match i with
  | .scale g f => Sys2Proof.Machine.execScale g f s
  | .xlate rs re cs ce => Sys2Proof.Machine.execXlate rs re cs ce s
  | .rdscr a => Sys2Proof.Machine.execRdscr a s
  | .rdwire k => Sys2Proof.Machine.execRdwire k s
  | .rdlen => Sys2Proof.Machine.execRdlen s
  | .rdcap => Sys2Proof.Machine.execRdcap s

end Sys2Proof.Machine
end

