-- ==== Sys2Proof/Machine/Request.lean ====
section
/-! DEFINITION. Processing one request word (spec/00_scope.md R8, spec/60_exceptions.md R97): decoding comes first, then
the operation. -/

namespace Sys2Proof.Machine

/-- A request word that has been taken from the host: its operation, or `IllegalOperation` (R49, R97). -/
def runWord (w : Word40) (s : State) : Host.Outcome State Fault Refusal :=
  match decode w with
  | .ok i => exec i s
  | .error _ => illegalWord s

/-- One word presented as the very next input. -/
def presentNext (w : Word40) (s : State) : State := s.setInputs (.request w :: s.inputs)

end Sys2Proof.Machine
end

