-- ==== Sys2Proof/Machine/Step.lean ====
section
/-! DEFINITION. One step of the block (spec/00_scope.md R8): it takes the next input the host presents and completes it.
With nothing presented it waits (spec/70_reset_and_hazards.md R111; log 6). -/

namespace Sys2Proof.Machine

/-- `step`: one request, one reset, or waiting. -/
def step (s : State) : Host.Outcome State Fault Refusal :=
  match nextArrival s with
  | .idle => .next s
  | .request w t => runWord w t
  | .reset t => .next (applyReset t)

/-- The word of an opcode-table row presented as the host's next request (log 4). -/
def State.withFetchWord (s : State) (nbits w : Nat) : State := presentNext (tableWord nbits w) s

end Sys2Proof.Machine
end

