-- ==== Sys2Proof/Machine/Assembler.lean ====
section
/-! DEFINITION. The assembly language (spec/30_encoding.md R53), its pseudo-instructions (R54) and the disassembler (R55).
Text is a list of characters. What R53 leaves open (blanks, blank lines, the case of digits) is log 11. -/

namespace Sys2Proof.Machine

/-! ### Statements and their words (R53, R54) -/

/-- One statement of the language. -/
inductive Stmt where
  /-- One of the six operations (R53). -/
  | op (i : Instr)
  /-- `.req 0xHHHHHHHHHH`: the literal word, legal or not (R53). -/
  | req (w : Word40)
  /-- `xlate1 r, cs, ce` (R54). -/
  | xlate1 (r cs ce : Nat)
  /-- `emit n` (R54). -/
  | emit (n : Nat)
  /-- `dump n` (R54). -/
  | dump (n : Nat)
  /-- `glyphcol g, f, r, c, j` (R54). -/
  | glyphcol (g : Byte) (f r c j : Nat)
  deriving DecidableEq, Repr

/-- Why the assembler refuses a line. DESIGN CHOICE: the reasons, and which is given where several hold (log 11). -/
inductive AsmError where
  /-- No statement of R53 or R54 has this name. -/
  | unknownStatement
  /-- The number of operands is not the statement's. -/
  | operandCount
  /-- An operand is no number in decimal, hexadecimal or binary (R53). -/
  | notANumber
  /-- An operand, written or computed, is outside `0..255` (R53, R54), or a condition of R54 fails. -/
  | outOfRange
  deriving DecidableEq, Repr

/-- `rdwire 0`, ..., `rdwire n-1` (R54). -/
def emitInstrs (n : Nat) : List Instr := (List.range n).map .rdwire

/-- `rdscr 0`, ..., `rdscr n-1` (R54). -/
def dumpInstrs (n : Nat) : List Instr := (List.range n).map .rdscr

/-- XLATE of the per-source-byte step: `xlate r, r+f-1, c+j*f, c+j*f+f-1`, on unbounded naturals (R54, R86). DESIGN CHOICE:
an end below zero, which only a composition step with `f = 0` and `r = 0` or `c = 0` has, is 0 (log 12). -/
def glyphXlate (f r c j : Nat) : Instr := .xlate r (r + f - 1) (c + j * f) (c + j * f + f - 1)

/-- The operations a statement expands to, or none where its condition fails (R54). A `.req` has no operation. -/
def Stmt.expand : Stmt → Option (List Instr)
  | .op i => some [i]
  | .req _ => none
  | .xlate1 r cs ce => some [.xlate r r cs ce]
  | .emit n => if 1 ≤ n ∧ n ≤ 8 then some (emitInstrs n) else none
  | .dump n => if 1 ≤ n ∧ n ≤ 8 then some (dumpInstrs n) else none
  | .glyphcol g f r c j =>
    if 1 ≤ f ∧ f ≤ 8 ∧ j ≤ 7 then some (.scale g f :: glyphXlate f r c j :: emitInstrs f) else none

/-- The words of a statement; refused when an operand, written or computed, is outside `0..255` (R53, R54). -/
def Stmt.words (st : Stmt) : Except AsmError (List Word40) :=
  match st with
  | .req w => .ok [w]
  | _ =>
    match st.expand with
    | none => .error .outOfRange
    | some is => if is.all Instr.wf then .ok (is.map encode) else .error .outOfRange

/-! ### Characters and numbers -/

/-- Blanks within a line (log 11). -/
def isBlank (c : Char) : Bool := c == ' ' || c == '\t' || c == '\r'

/-- Lower case of a letter; the language ignores the case of mnemonics (R53). -/
def lowerChar (c : Char) : Char := if 'A' ≤ c ∧ c ≤ 'Z' then Char.ofNat (c.toNat + 32) else c

/-- Text without blanks at its two ends. -/
def trimBlanks (t : List Char) : List Char := ((t.dropWhile isBlank).reverse.dropWhile isBlank).reverse

/-- Text cut at every comma (R53). -/
def splitCommas : List Char → List (List Char)
  | [] => [[]]
  | c :: cs =>
    match splitCommas cs with
    | [] => [[]]
    | part :: parts => if c = ',' then [] :: part :: parts else (c :: part) :: parts

/-- The value of a digit (lower case) in a base up to sixteen. -/
def digitValue (base : Nat) (c : Char) : Option Nat :=
  let v : Option Nat :=
    if '0' ≤ c ∧ c ≤ '9' then some (c.toNat - '0'.toNat)
    else if 'a' ≤ c ∧ c ≤ 'f' then some (c.toNat - 'a'.toNat + 10)
    else none
  match v with
  | some n => if n < base then some n else none
  | none => none

/-- Digits read from the left onto an accumulated value. -/
def readDigits (base acc : Nat) : List Char → Option Nat
  | [] => some acc
  | c :: cs =>
    match digitValue base c with
    | some d => readDigits base (acc * base + d) cs
    | none => none

/-- At least one digit. -/
def readNonempty (base : Nat) : List Char → Option Nat
  | [] => none
  | c :: cs => readDigits base 0 (c :: cs)

/-- A numeric operand: decimal (`13`), hexadecimal (`0x0D`) or binary (`0b1101`) (R53), in lower case. DESIGN CHOICE: any
number of leading zeros in each of the three (log 11). -/
def readNumber : List Char → Option Nat
  | '0' :: 'x' :: ds => readNonempty 16 ds
  | '0' :: 'b' :: ds => readNonempty 2 ds
  | ds => readNonempty 10 ds

/-- A numeric operand in `0..255`, else the line is refused (R53). -/
def readOperand (t : List Char) : Except AsmError Nat :=
  match readNumber (trimBlanks t) with
  | none => .error .notANumber
  | some n => if n < 256 then .ok n else .error .outOfRange

/-- The operands of a statement. -/
def readOperands : List (List Char) → Except AsmError (List Nat)
  | [] => .ok []
  | t :: ts =>
    match readOperand t with
    | .error e => .error e
    | .ok n =>
      match readOperands ts with
      | .error e => .error e
      | .ok ns => .ok (n :: ns)

/-! ### Lines (R53) -/

/-- The statement named by a mnemonic, in lower case, with its operands. -/
def stmtOf (name : List Char) (ns : List Nat) : Except AsmError Stmt :=
  if name = ['s', 'c', 'a', 'l', 'e'] then
    match ns with
    | [g, f] => .ok (.op (.scale (BitVec.ofNat 8 g) f))
    | _ => .error .operandCount
  else if name = ['x', 'l', 'a', 't', 'e'] then
    match ns with
    | [rs, re, cs, ce] => .ok (.op (.xlate rs re cs ce))
    | _ => .error .operandCount
  else if name = ['r', 'd', 's', 'c', 'r'] then
    match ns with
    | [i] => .ok (.op (.rdscr i))
    | _ => .error .operandCount
  else if name = ['r', 'd', 'w', 'i', 'r', 'e'] then
    match ns with
    | [k] => .ok (.op (.rdwire k))
    | _ => .error .operandCount
  else if name = ['r', 'd', 'l', 'e', 'n'] then
    match ns with
    | [] => .ok (.op .rdlen)
    | _ => .error .operandCount
  else if name = ['r', 'd', 'c', 'a', 'p'] then
    match ns with
    | [] => .ok (.op .rdcap)
    | _ => .error .operandCount
  else if name = ['x', 'l', 'a', 't', 'e', '1'] then
    match ns with
    | [r, cs, ce] => .ok (.xlate1 r cs ce)
    | _ => .error .operandCount
  else if name = ['e', 'm', 'i', 't'] then
    match ns with
    | [n] => .ok (.emit n)
    | _ => .error .operandCount
  else if name = ['d', 'u', 'm', 'p'] then
    match ns with
    | [n] => .ok (.dump n)
    | _ => .error .operandCount
  else if name = ['g', 'l', 'y', 'p', 'h', 'c', 'o', 'l'] then
    match ns with
    | [g, f, r, c, j] => .ok (.glyphcol (BitVec.ofNat 8 g) f r c j)
    | _ => .error .operandCount
  else .error .unknownStatement

/-- The operand of `.req`: `0x` and ten hexadecimal digits (R53). -/
def readReq (t : List Char) : Except AsmError Stmt :=
  match t with
  | '0' :: 'x' :: ds =>
    if ds.length = 10 then
      match readNonempty 16 ds with
      | some n => .ok (.req (BitVec.ofNat 40 n))
      | none => .error .notANumber
    else .error .notANumber
  | _ => .error .notANumber

/-- The text of a line that counts: up to the comment, in lower case, without outer blanks (R53). -/
def lineText (line : List Char) : List Char := trimBlanks ((line.takeWhile (· ≠ ';')).map lowerChar)

/-- One line: its statement, or none where there is nothing but blanks and comment (log 11). -/
def parseLine (line : List Char) : Except AsmError (Option Stmt) :=
  let text := lineText line
  let name := text.takeWhile (fun c => !isBlank c)
  let rest := trimBlanks (text.dropWhile (fun c => !isBlank c))
  if text = [] then .ok none
  else if name = ['.', 'r', 'e', 'q'] then
    match readReq rest with
    | .ok st => .ok (some st)
    | .error e => .error e
  else
    match (if rest = [] then Except.ok [] else readOperands (splitCommas rest)) with
    | .error e => .error e
    | .ok ns =>
      match stmtOf name ns with
      | .ok st => .ok (some st)
      | .error e => .error e

/-- The words of one line. -/
def assembleLine (line : List Char) : Except AsmError (List Word40) :=
  match parseLine line with
  | .error e => .error e
  | .ok none => .ok []
  | .ok (some st) => st.words

/-- A program, one statement per line (R53): its words, or the first refused line's number (from 0) and the reason. R53
says only that the line is refused. DESIGN CHOICE: one refused line refuses the whole program, and the first is the one
reported, counted from `n` (log 11). -/
def assembleLines (n : Nat) : List (List Char) → Except (Nat × AsmError) (List Word40)
  | [] => .ok []
  | line :: lines =>
    match assembleLine line with
    | .error e => .error (n, e)
    | .ok ws =>
      match assembleLines (n + 1) lines with
      | .error e => .error e
      | .ok rest => .ok (ws ++ rest)

/-! ### The disassembler (R55) -/

/-- A hexadecimal digit. -/
def hexDigit (n : Nat) : Char := if n < 10 then Char.ofNat (48 + n) else Char.ofNat (55 + n)

/-- `k` hexadecimal digits of a number, the most significant first. -/
def hexDigits : Nat → Nat → List Char
  | 0, _ => []
  | k + 1, n => hexDigits k (n / 16) ++ [hexDigit (n % 16)]

/-- A number of `0..255` in decimal, without leading zeros. -/
def decimal (n : Nat) : List Char :=
  if n < 10 then [hexDigit n]
  else if n < 100 then [hexDigit (n / 10), hexDigit (n % 10)]
  else [hexDigit (n / 100), hexDigit (n / 10 % 10), hexDigit (n % 10)]

/-- Operands separated by commas. -/
def operandList : List (List Char) → List Char
  | [] => []
  | [t] => t
  | t :: ts => t ++ ',' :: ' ' :: operandList ts

/-- An operation in the text of R53: SCALE's `g` in hexadecimal, every other operand in decimal (R55).
DESIGN CHOICE: `g` is always two digits, `0x05` (log 11). -/
def showInstr : Instr → List Char
  | .scale g f => ['s', 'c', 'a', 'l', 'e', ' '] ++ operandList ['0' :: 'x' :: hexDigits 2 g.toNat, decimal f]
  | .xlate rs re cs ce =>
      ['x', 'l', 'a', 't', 'e', ' '] ++ operandList [decimal rs, decimal re, decimal cs, decimal ce]
  | .rdscr i => ['r', 'd', 's', 'c', 'r', ' '] ++ decimal i
  | .rdwire k => ['r', 'd', 'w', 'i', 'r', 'e', ' '] ++ decimal k
  | .rdlen => ['r', 'd', 'l', 'e', 'n']
  | .rdcap => ['r', 'd', 'c', 'a', 'p']

/-- What the disassembler says of a word: its text, and whether it calls the word illegal (R55). -/
structure Listing where
  text : List Char
  illegal : Bool
  deriving DecidableEq, Repr

/-- The listing of a word: an operation of R48 in the text of R53, any other word as `.req` with ten digits (R55). -/
def disassemble (w : Word40) : Listing :=
  match decode w with
  | .ok i => ⟨showInstr i, false⟩
  | .error _ => ⟨['.', 'r', 'e', 'q', ' ', '0', 'x'] ++ hexDigits 10 w.toNat, true⟩

end Sys2Proof.Machine
end

