-- ==== Sys2Proof/Machine/Run.lean ====
section
/-! DEFINITION. Runs (spec/70_reset_and_hazards.md R120): a finite sequence of requests, with an optional reset between
any two, presented to the block from a start state; and what is observed of a run. -/

namespace Sys2Proof.Machine

/-- A sequence presented after what is already waiting (R37). -/
def State.present (s : State) (es : List Event) : State := s.setInputs (s.inputs ++ es)

/-- All inputs of a sequence from a start state, a trailing reset too, in place of what the state still has to come: as many
steps as inputs. The run of R120, with its end and its observation, is `observeRun` (log 18). -/
def runEvents (es : List Event) (s : State) : Host.Outcome State Fault Refusal :=
  Sys2Proof.core.run es.length (s.setInputs es)

/-- The requests of a list of operations. -/
def requests (is : List Instr) : List Event := is.map (fun i => .request (encode i))

/-- The inputs of a run (R120): up to the last request, with whose response the run ends; a reset after it is no part of
the run. DEDUCED: resets before the first request and several in a row are admitted, each an event of its own (log 18). -/
def runInputs : List Event → List Event
  | [] => []
  | .request w :: es => .request w :: runInputs es
  | .reset :: es =>
    match runInputs es with
    | [] => []
    | e :: rest => .reset :: e :: rest

/-- The observation of R120: the run's own responses, and the final `(SCR, SLEN)`. -/
structure Observation where
  responses : List Response
  scr : List Byte
  slen : Nat
  deriving DecidableEq, Repr

/-- The bytes `SCR[0] .. SCR[CAP-1]`. -/
def State.scrBytes (s : State) : List Byte := (List.range s.cfg.cap).map (Memory.read s.scr)

/-- What is observed at the end of a run that began in a state with `past` responses already delivered: these are not the
run's own. -/
def State.observe (past : Nat) (s : State) : Observation where
  responses := s.responses.drop past
  scr := s.scrBytes
  slen := s.slen

/-- The observation of the run of a sequence from a start state, the reset state or a state named by a claim (R120). -/
def observeRun (es : List Event) (s : State) : Host.Outcome Observation Fault Refusal :=
  match runEvents (runInputs es) s with
  | .next t => .next (t.observe s.responses.length)
  | .fault r => .fault r
  | .refused r => .refused r

end Sys2Proof.Machine
end

