-- ==== Sys2Proof/Machine/Composition.lean ====
section
/-! DEFINITION. The glyph-to-window composition (spec/44_glyph_composition.md): the HOST's contract. Nothing here is
performed by the block (spec/00_scope.md R4): these definitions say what a driver does with the block's responses, and
where the bytes go under the spec's assumption about the controller (R91; log 12). -/

namespace Sys2Proof.Machine

/-- The CursorRect of source byte `j` of a glyph at logical row `r`, column `c`, factor `f` (R86). An end below zero, which only
`f = 0` has, is 0 (log 12). -/
def glyphRect (f r c j : Nat) : CursorRect where
  rowStart := r
  rowEnd := r + f - 1
  columnStart := c + j * f
  columnEnd := c + j * f + f - 1

/-- A glyph fits the display (R85, R89), for a factor of at least 1; an end below zero is 0 (log 12). -/
def glyphFits (f r c : Nat) : Bool :=
  decide (r + f - 1 ≤ Config.numPages - 1 ∧ c + Config.glyphBits * f - 1 ≤ Config.numColumns - 1)

/-- What the driver sends to the controller. The byte values of the two commands are in no source (R106, I15). -/
inductive BusItem where
  /-- `SET_COLUMN_RANGE(start, end)` (R87). -/
  | setColumnRange (start stop : Byte)
  /-- `SET_PAGE_RANGE(start, end)` (R87). -/
  | setPageRange (start stop : Byte)
  /-- One data byte (R87). -/
  | data (b : Byte)
  deriving DecidableEq, Repr

/-- The two window commands of an XLATE response: from `DATA[31:24], [23:16]` and `DATA[15:8], [7:0]` (R87). -/
def windowCommands (d : Data) : List BusItem :=
  [.setColumnRange (d.extractLsb' 24 8) (d.extractLsb' 16 8), .setPageRange (d.extractLsb' 8 8) (d.extractLsb' 0 8)]

/-- The host presents one operation to the block and takes its response; none where the operands do not fit their fields
(nothing can be presented) or the block stops. -/
def issue (i : Instr) (s : State) : Option (Response × State) :=
  if i.wf then
    match step (presentNext (encode i) s) with
    | .next t => t.responses.getLast?.map (fun r => (r, t))
    | .fault _ => none
    | .refused _ => none
  else none

/-- `for k in 0 .. n-1: rdwire k`, from wire index `k` up: the data bytes in wire order (R84, R87). -/
def readWire (k : Nat) : Nat → State → Option (List Byte × State)
  | 0, s => some ([], s)
  | n + 1, s =>
    match issue (.rdwire k) s with
    | none => none
    | some (r, t) =>
      match readWire (k + 1) n t with
      | none => none
      | some (bs, u) => some (r.data.extractLsb' 0 8 :: bs, u)

/-- The open parameter `HREPEAT ∈ {1, f}` of a driver (R90, I14; log 12): a ScaledColumn is streamed into its window once,
or once for each of the window's `f` columns. -/
inductive HRepeat where
  | once
  | perColumn
  deriving DecidableEq, Repr

/-- The value of `HREPEAT` at factor `f` (R90). -/
def HRepeat.count (f : Nat) : HRepeat → Nat
  | .once => 1
  | .perColumn => f

/-- The data bytes of one window: the scaled bytes, as often as `HREPEAT` says (R90). -/
def HRepeat.stream (h : HRepeat) (f : Nat) (bs : List Byte) : List Byte := (List.replicate (h.count f) bs).flatten

/-- `COMPOSE_STEP(g_j, f, r, c, j)` (R87): scale, translate, require both OK (else nothing is sent, R89), send the window,
then the data in wire order, `HREPEAT` times over (R90). Answers what is sent and the block after it. DESIGN CHOICE: the block is read once, by `f`
RDWIRE requests, and the driver sends the bytes read again for each repetition (log 12). -/
def composeStep (h : HRepeat) (g : Byte) (f r c j : Nat) (s : State) : Option (List BusItem × State) :=
  match issue (.scale g f) s with
  | none => none
  | some (r1, s1) =>
    match issue (glyphXlate f r c j) s1 with
    | none => none
    | some (r2, s2) =>
      if r1.status = .ok ∧ r2.status = .ok then
        match readWire 0 f s2 with
        | none => none
        | some (bs, s3) =>
          some (windowCommands r2.data ++ (h.stream f bs).map .data, s3)
      else some ([], s2)

/-- A whole glyph: the steps of its source bytes in turn, windows and data interleaved per source byte (R88, R92). -/
def composeGlyph (h : HRepeat) (f r c : Nat) : Nat → List Byte → State → Option (List BusItem × State)
  | _, [], s => some ([], s)
  | j, g :: gs, s =>
    match composeStep h g f r c j s with
    | none => none
    | some (items, t) =>
      match composeGlyph h f r c (j + 1) gs t with
      | none => none
      | some (more, u) => some (items ++ more, u)

/-! ### Where the bytes land, under the page-first assumption (R91; log 12) -/

/-- One byte of the external display memory (R25). -/
structure Placed where
  column : Nat
  page : Nat
  byte : Byte
  deriving DecidableEq, Repr

/-- The controller's window while a bus stream is followed, and how many data bytes it has taken. -/
structure Cursor where
  columnStart : Nat
  columnEnd : Nat
  pageStart : Nat
  pageEnd : Nat
  taken : Nat
  deriving DecidableEq, Repr

/-- Where the next data byte lands: column and page. Data bytes fill a window one column at a time, from `pageStart` to
`pageEnd` (the assumption of R91, D26; log 12). Where a byte goes once the window's last column is full is open in the spec:
a free value (log 17). -/
def Cursor.place (k : Cursor) : Nat × Nat :=
  if k.columnStart + k.taken / (k.pageEnd - k.pageStart + 1) ≤ k.columnEnd then
    (k.columnStart + k.taken / (k.pageEnd - k.pageStart + 1), k.pageStart + k.taken % (k.pageEnd - k.pageStart + 1))
  else Config.placeBeyondWindow k.columnStart k.columnEnd k.pageStart k.pageEnd k.taken

/-- A bus stream followed item by item. A window command starts the fill anew at the window's start (log 17). -/
def placeItems : Cursor → List BusItem → List Placed
  | _, [] => []
  | k, .setColumnRange a b :: items => placeItems { k with columnStart := a.toNat, columnEnd := b.toNat, taken := 0 } items
  | k, .setPageRange a b :: items => placeItems { k with pageStart := a.toNat, pageEnd := b.toNat, taken := 0 } items
  | k, .data b :: items =>
    ⟨k.place.1, k.place.2, b⟩ :: placeItems { k with taken := k.taken + 1 } items

/-- Where the bytes of a bus stream that begins with its window commands land; the window of the first cursor is then
never used (log 17). -/
def placed (items : List BusItem) : List Placed := placeItems ⟨0, 0, 0, 0, 0⟩ items

end Sys2Proof.Machine
end

