-- ==== Sys2Proof/Safety.lean ====
section
/-! DEFINITION. What a good state is, in the terms the statements use: the invariant of spec/10_state.md R13, the scratch
contents a history of inputs leaves, and a safe run. -/

namespace Sys2Proof.Machine

/-- The scratch byte at address `a` when the most recent successful SCALE was `(g, f)`: `Scale(g, f)[a]` below `f`, and
`0x00` from `f` up (R11, R13, R62). -/
def columnByte (g : Byte) (f a : Nat) : Byte := if a < f then scaledByte g f a else 0

/-- The invariant of R13, and the canonical form of the memory: `CAP` is legal; `SLEN ≤ CAP`; if `SLEN ≥ 1` the scratch
buffer holds `Scale(g, SLEN)` for some GlyphColumn `g`, and zeros above it. With `SLEN = 0` its bytes are anything. -/
def State.Inv (s : State) : Prop :=
  s.cfg.valid ∧ s.slen ≤ s.cfg.cap ∧ Memory.wf s.scr = true ∧ Memory.inRange s.scr s.cfg.cap = true ∧
    (1 ≤ s.slen → ∃ g : Byte, ∀ a, a < s.cfg.cap → Memory.read s.scr a = columnByte g s.slen a)

/-- What one input does to the most recent successful SCALE `(g, f)`, if any (R12, R13): an accepted SCALE becomes it, a
reset forgets it, everything else leaves it. -/
def track (c : Config) (h : Option (Byte × Nat)) : Event → Option (Byte × Nat)
  | .reset => none
  | .request w =>
    match decode w with
    | .ok (.scale g f) => if 1 ≤ f ∧ f ≤ c.cap then some (g, f) else h
    | _ => h

/-- The state holds the result of the most recent successful SCALE `h`; with none since reset, `SLEN = 0` (R12, R13). -/
def State.Holds (s : State) : Option (Byte × Nat) → Prop
  | none => s.slen = 0
  | some (g, f) => s.slen = f ∧ 1 ≤ f ∧ f ≤ s.cfg.cap ∧ ∀ a, a < s.cfg.cap → Memory.read s.scr a = columnByte g f a

/-- The run of a sequence completes: no step of it faults or is refused. -/
def SafeRun (es : List Event) (s : State) : Prop := ∃ t, runEvents es s = .next t

end Sys2Proof.Machine
end

