-- ==== Sys2Proof/Certificates/Slice0/Obligations.lean ====
section
/-! DEFINITION. The statements for the provers, in the order of spec/. Each says what a numbered rule (or a section) of
spec/ says the block does. A statement that rests on a choice of the model names the log entry. -/

open Sys2Proof Sys2Proof.Machine

/-! ### Encoding (30_encoding.md) -/

/-- Words written out from the encodings of R53 and the vectors of 95_test_vectors.md, with the instruction each is. -/
def Obligations.SpecWordsDecodeAsWritten : Prop :=
  decode 0x013C020000 = .ok (.scale 0x3C 2) ∧ decode 0x01FFFF0000 = .ok (.scale 0xFF 255) ∧
  decode 0x0201064047 = .ok (.xlate 1 6 64 71) ∧ decode 0x02FFFFFFFF = .ok (.xlate 255 255 255 255) ∧
  decode 0x0303000000 = .ok (.rdscr 3) ∧ decode 0x04FF000000 = .ok (.rdwire 255) ∧
  decode 0x0500000000 = .ok .rdlen ∧ decode 0x0600000000 = .ok .rdcap

/-- Decode and encode agree on every well-formed instruction: no bit of an operand is dropped (R43, R44, R53). -/
def Obligations.DecodeOfEncodeIsTheInstruction : Prop :=
  ∀ i : Instr, i.wf = true → decode (encode i) = .ok i

/-- The other direction: a word that decodes is the encoding of what it decodes to, and that is well-formed. -/
def Obligations.LegalWordIsTheEncodingOfItsInstruction : Prop :=
  ∀ (w : Word40) (i : Instr), decode w = .ok i → i.wf = true ∧ encode i = w

/-- R48: the match/mask table; a word selects an operation iff its masked bits match; at most one row matches; an
assigned operation code with a nonzero reserved field is answered `IllegalOperation` and changes no state. -/
def Obligations.RowsSelectByMaskAndMatch : Prop :=
  ([Op.scale, .xlate, .rdscr, .rdwire, .rdlen, .rdcap].map (fun op => (op.matchBits, op.maskBits)) =
    [(0x0100000000, 0xFF0000FFFF), (0x0200000000, 0xFF00000000), (0x0300000000, 0xFF00FFFFFF),
     (0x0400000000, 0xFF00FFFFFF), (0x0500000000, 0xFFFFFFFFFF), (0x0600000000, 0xFFFFFFFFFF)]) ∧
  ∀ w : Word40,
    (∀ op : Op, (∃ i, decode w = .ok i ∧ i.op = op) ↔ w &&& op.maskBits = op.matchBits) ∧
    (∀ op op' : Op, w &&& op.maskBits = op.matchBits → w &&& op'.maskBits = op'.matchBits → op = op') ∧
    (∀ (s : State) (es : List Event), s.inputs = .request w :: es →
      (∃ op : Op, fieldOpc w = op.opcode) → (∀ op : Op, w &&& op.maskBits ≠ op.matchBits) →
      step s = .next { s with inputs := es, responses := s.responses ++ [⟨.illegalOperation, 0⟩] })

/-- R49: an operation code `0x00` or `0x07`–`0xFF`, or a nonzero reserved field of an assigned one (the fields of R43),
is answered `IllegalOperation` with no data, and no state changes. -/
def Obligations.IllegalWordsAnswerIllegalOperation : Prop :=
  ∀ (s : State) (w : Word40) (es : List Event), s.inputs = .request w :: es →
    (fieldOpc w = 0x00 ∨ 0x07 ≤ (fieldOpc w).toNat ∨
      (fieldOpc w = 0x01 ∧ (fieldC w ≠ 0 ∨ fieldD w ≠ 0)) ∨
      ((fieldOpc w = 0x03 ∨ fieldOpc w = 0x04) ∧ (fieldB w ≠ 0 ∨ fieldC w ≠ 0 ∨ fieldD w ≠ 0)) ∨
      ((fieldOpc w = 0x05 ∨ fieldOpc w = 0x06) ∧
        (fieldA w ≠ 0 ∨ fieldB w ≠ 0 ∨ fieldC w ≠ 0 ∨ fieldD w ≠ 0))) →
    step s = .next { s with inputs := es, responses := s.responses ++ [⟨.illegalOperation, 0⟩] }

/-- R52: on a byte-wide link the five bytes of a request or a response go most significant first, and read back. -/
def Obligations.LinkCarriesMostSignificantByteFirst : Prop :=
  (∀ (w : Word40) (rest : List Byte),
    linkBytes w = [w.extractLsb' 32 8, w.extractLsb' 24 8, w.extractLsb' 16 8, w.extractLsb' 8 8, w.extractLsb' 0 8] ∧
    linkWord (linkBytes w ++ rest) = some (w, rest)) ∧
  ∀ r : Response, r.link.head? = some r.status.code ∧ linkWord r.link = some (r.word, [])

/-! ### Responses (30_encoding.md R45, R46; 60_exceptions.md R94) -/

/-- The response word holds the status code and the data, reads back, and no other word is a response (R94, I10). -/
def Obligations.ResponseWordReadsBack : Prop :=
  (∀ r : Response, Response.ofWord r.word = some r) ∧
  (∀ (w : Word40) (r : Response), Response.ofWord w = some r → r.word = w) ∧
  ∀ w : Word40, (Response.ofWord w).isSome = true ↔ (w.extractLsb' 32 8).toNat ≤ 5

/-- R45: every request produces exactly one response, the word `{STATUS, DATA}`, with `DATA = 0` whenever `STATUS ≠ 0`;
it is delivered in the same step, before the next request is accepted. -/
def Obligations.EveryRequestGetsExactlyOneResponse : Prop :=
  ∀ (s : State) (w : Word40) (es : List Event), s.Inv → s.inputs = .request w :: es →
    ∃ t r, step s = .next t ∧ t.inputs = es ∧ t.responses = s.responses ++ [r] ∧
      r.word.extractLsb' 32 8 = r.status.code ∧ r.word.extractLsb' 0 32 = r.data ∧
      (r.word.extractLsb' 32 8 ≠ 0 → r.word.extractLsb' 0 32 = 0)

/-- R97, with the codes of R94: a request reports exactly one status. Decoding comes first; each error is answered exactly
on its cause, by the requests that raise it; no error carries data; the codes `0x06`–`0xFF` are never produced. -/
def Obligations.EachStatusHasExactlyItsCause : Prop :=
  ([Status.ok, .capacityExceeded, .outOfBounds, .invalidFactor, .invalidIndex, .illegalOperation].map Status.code =
    [0x00, 0x01, 0x02, 0x03, 0x04, 0x05]) ∧
  ∀ (s : State) (w : Word40) (es : List Event), s.Inv → s.inputs = .request w :: es →
    ∃ t r, step s = .next t ∧ t.responses = s.responses ++ [r] ∧
      (r.status = .capacityExceeded ↔ ∃ g f, decode w = .ok (.scale g f) ∧ 1 ≤ f ∧ s.cfg.cap < f) ∧
      (r.status = .outOfBounds ↔ ∃ rs re cs ce, decode w = .ok (.xlate rs re cs ce) ∧
        ¬ (rs ≤ re ∧ re ≤ 7 ∧ cs ≤ ce ∧ ce ≤ 127)) ∧
      (r.status = .invalidFactor ↔ ∃ g, decode w = .ok (.scale g 0)) ∧
      (r.status = .invalidIndex ↔ ∃ i, (decode w = .ok (.rdscr i) ∨ decode w = .ok (.rdwire i)) ∧ s.slen ≤ i) ∧
      (r.status = .illegalOperation ↔ ∀ op : Op, w &&& op.maskBits ≠ op.matchBits) ∧
      (r.status ≠ .ok → r.data = 0) ∧ r.status.code.toNat ≤ 5

/-- R46: the data of an OK response, operation by operation. -/
def Obligations.OkDataIsTheOperationsResult : Prop :=
  ∀ (s : State) (w : Word40) (es : List Event), s.Inv → s.inputs = .request w :: es →
    ∃ t r, step s = .next t ∧ t.responses = s.responses ++ [r] ∧
      (r.status = .ok →
        match decode w with
        | .ok (.scale _ f) => r.data.toNat = f ∧ t.slen = f
        | .ok (.xlate rs re cs ce) =>
            (r.data.extractLsb' 24 8).toNat = cs ∧ (r.data.extractLsb' 16 8).toNat = ce ∧
            (r.data.extractLsb' 8 8).toNat = 7 - re ∧ (r.data.extractLsb' 0 8).toNat = 7 - rs
        | .ok (.rdscr i) => r.data.toNat = (Memory.read s.scr i).toNat
        | .ok (.rdwire k) => r.data.toNat = (Memory.read s.scr (s.slen - 1 - k)).toNat
        | .ok .rdlen => r.data.toNat = s.slen
        | .ok .rdcap => r.data.toNat = s.cfg.cap
        | .error _ => False)

/-! ### SCALE (41_scaler.md) -/

/-- R58, with R59 to R62: the word `{0x01, g, f, C, D}`. A nonzero `C` or `D` is illegal; `f = 0` is `InvalidFactor`;
`f > CAP` is `CapacityExceeded`; none of these changes `SCR` or `SLEN`. Otherwise SCALE completes: bit `b` of `SCR[a]` is
`g[(8*a + b) div f]` for `a < f`, the rest of the scratch space is `0x00`, `SLEN = f`, the answer is OK with `f`, and
nothing else changes (for the addresses that are no scratch bytes, see the invariant). -/
def Obligations.ScaleChecksClearsAndWritesTheColumn : Prop :=
  ∀ (s : State) (g f c d : Byte),
    ((c ≠ 0 ∨ d ≠ 0) → runWord (packWord 0x01 g f c d) s =
      .next { s with responses := s.responses ++ [⟨.illegalOperation, 0⟩] }) ∧
    runWord (packWord 0x01 g f 0x00 0x00) s = exec (.scale g f.toNat) s ∧
    (f = 0 → exec (.scale g f.toNat) s = .next { s with responses := s.responses ++ [⟨.invalidFactor, 0⟩] }) ∧
    (s.cfg.cap < f.toNat →
      exec (.scale g f.toNat) s = .next { s with responses := s.responses ++ [⟨.capacityExceeded, 0⟩] }) ∧
    (f ≠ 0 → f.toNat ≤ s.cfg.cap →
      ∃ t, exec (.scale g f.toNat) s = .next t ∧
        (∀ a b, a < f.toNat → b < 8 → (Memory.read t.scr a).getLsbD b = g.getLsbD ((8 * a + b) / f.toNat)) ∧
        (∀ a, f.toNat ≤ a → a < s.cfg.cap → Memory.read t.scr a = 0) ∧
        t.slen = f.toNat ∧ t.responses = s.responses ++ [⟨.ok, f.zeroExtend 32⟩] ∧
        t.cfg = s.cfg ∧ t.inputs = s.inputs ∧ t.draws = s.draws ∧
        (s.Inv → ∀ a, s.cfg.cap ≤ a → Memory.read t.scr a = Memory.read s.scr a))

/-- R56 and R57: `Scale(g, f)` is exactly `f` bytes, pixel by pixel, and equivalently the bytes of the `8f`-bit value `V`
with `V[y] = g[y div f]`. -/
def Obligations.ScaleIsThePixelMap : Prop :=
  ∀ (g : Byte) (f : Nat), 1 ≤ f →
    (scaleColumn g f).length = f ∧
    (∀ i b, i < f → b < 8 → ∃ v, (scaleColumn g f)[i]? = some v ∧ v.getLsbD b = g.getLsbD ((8 * i + b) / f)) ∧
    ∀ V : BitVec (8 * f), (∀ y, y < 8 * f → V.getLsbD y = g.getLsbD (y / f)) →
      ∀ i, i < f → (scaleColumn g f)[i]? = some (V.extractLsb' (8 * i) 8)

/-- R27 and R28: after SCALE, pixel `y` of the magnified column is bit `y mod 8` of `SCR[y div 8]`, and `SCR` holds the
`8f`-bit value `V` in little-endian byte order. -/
def Obligations.ScratchHoldsTheColumnLittleEndian : Prop :=
  ∀ (s : State) (g : Byte) (f : Nat), 1 ≤ f → f ≤ s.cfg.cap →
    ∃ t, exec (.scale g f) s = .next t ∧
      (∀ y, y < 8 * f → (Memory.read t.scr (y / 8)).getLsbD (y % 8) = g.getLsbD (y / f)) ∧
      ∀ V : BitVec (8 * f), (∀ y, y < 8 * f → V.getLsbD y = g.getLsbD (y / f)) →
        ∀ i, i < f → Memory.read t.scr i = V.extractLsb' (8 * i) 8

/-- R65: the bit-count invariant, for every factor. -/
def Obligations.ScalingMultipliesTheBitCount : Prop :=
  ∀ (g : Byte) (f : Nat), 1 ≤ f → popcountAll (scaleColumn g f) = popcount g * f

/-- R63: identity at factor 1, of the function and of the request. -/
def Obligations.FactorOneIsIdentity : Prop :=
  ∀ g : Byte, scaleColumn g 1 = [g] ∧
    ∀ s : State, 1 ≤ s.cfg.cap →
      ∃ t, exec (.scale g 1) s = .next t ∧ Memory.read t.scr 0 = g ∧ t.slen = 1

/-- R64 and R66: the zero column and the full column, at every factor. -/
def Obligations.ZeroAndFullColumnsStayUniform : Prop :=
  ∀ f : Nat, 1 ≤ f → scaleColumn 0x00 f = List.replicate f 0x00 ∧ scaleColumn 0xFF f = List.replicate f 0xFF

/-- R67: top-to-bottom order is preserved; source pixel `k` is the run of magnified pixels `k*f .. k*f+f-1`, in bytes
`(k*f) div 8` to `(k*f+f-1) div 8`. -/
def Obligations.SourcePixelsBecomeRunsInOrder : Prop :=
  ∀ (g : Byte) (f : Nat), 1 ≤ f →
    (∀ y y', y < y' → y' < 8 * f → y / f ≤ y' / f) ∧
    (∀ k y, k < 8 → (y / f = k ↔ k * f ≤ y ∧ y ≤ k * f + f - 1)) ∧
    ∀ k y, k < 8 → k * f ≤ y → y ≤ k * f + f - 1 →
      (k * f) / 8 ≤ y / 8 ∧ y / 8 ≤ (k * f + f - 1) / 8 ∧
      ∃ v, (scaleColumn g f)[y / 8]? = some v ∧ v.getLsbD (y % 8) = g.getLsbD k

/-- R68: the source's sequential walk, most significant bit first with a descending cursor, computes the same bytes. -/
def Obligations.SequentialWalkComputesTheSameBytes : Prop :=
  ∀ (g : Byte) (f : Nat), 1 ≤ f → walkColumn g f = scaleColumn g f

/-- R69: SCALE reads nothing but its request and `CAP`: two states with the same `CAP` get the same response, and, when
it is accepted, the same `SCR` and `SLEN`, whatever these were. -/
def Obligations.ScaleIgnoresTheOldScratch : Prop :=
  ∀ (s s' : State) (g : Byte) (f : Nat), s.cfg = s'.cfg →
    ∃ t t' r, exec (.scale g f) s = .next t ∧ exec (.scale g f) s' = .next t' ∧
      t.responses = s.responses ++ [r] ∧ t'.responses = s'.responses ++ [r] ∧
      (r.status = .ok → t.scr = t'.scr ∧ t.slen = t'.slen)

/-! ### XLATE (42_address_translator.md) -/

/-- R70, with R71, R72, R74: the word `{0x02, rs, re, cs, ce}` is never illegal; an accepted rectangle is answered OK with
`{cs, ce, 7 - re, 7 - rs}`, any other `OutOfBounds`; the state is unchanged but for the response. -/
def Obligations.XlateTranslatesOrRefuses : Prop :=
  ∀ (s : State) (rs re cs ce : Byte),
    runWord (packWord 0x02 rs re cs ce) s = exec (.xlate rs.toNat re.toNat cs.toNat ce.toNat) s ∧
    (rs.toNat ≤ re.toNat ∧ re.toNat ≤ 7 ∧ cs.toNat ≤ ce.toNat ∧ ce.toNat ≤ 127 →
      ∃ d : Data, exec (.xlate rs.toNat re.toNat cs.toNat ce.toNat) s =
          .next { s with responses := s.responses ++ [⟨.ok, d⟩] } ∧
        d.toNat = cs.toNat * 2 ^ 24 + ce.toNat * 2 ^ 16 + (7 - re.toNat) * 2 ^ 8 + (7 - rs.toNat)) ∧
    (¬ (rs.toNat ≤ re.toNat ∧ re.toNat ≤ 7 ∧ cs.toNat ≤ ce.toNat ∧ ce.toNat ≤ 127) →
      exec (.xlate rs.toNat re.toNat cs.toNat ce.toNat) s =
        .next { s with responses := s.responses ++ [⟨.outOfBounds, 0⟩] })

/-- R76: every accepted XLATE yields a window inside the controller's space, its ends in order, as tall as the rectangle. -/
def Obligations.AcceptedWindowIsInsideTheDisplay : Prop :=
  ∀ (s : State) (rs re cs ce : Nat), rs ≤ re → re ≤ 7 → cs ≤ ce → ce ≤ 127 →
    ∃ t d, exec (.xlate rs re cs ce) s = .next t ∧ t.responses = s.responses ++ [⟨.ok, d⟩] ∧
      (d.extractLsb' 8 8).toNat ≤ (d.extractLsb' 0 8).toNat ∧ (d.extractLsb' 0 8).toNat ≤ 7 ∧
      (d.extractLsb' 24 8).toNat ≤ (d.extractLsb' 16 8).toNat ∧ (d.extractLsb' 16 8).toNat ≤ 127 ∧
      (d.extractLsb' 0 8).toNat - (d.extractLsb' 8 8).toNat = re - rs

/-- R77: the window selects exactly the intended rectangle: a logical row lies in the rows of the rectangle iff its native
page lies in the pages of the window, and the columns are the same. -/
def Obligations.WindowSelectsExactlyTheRectangle : Prop :=
  ∀ (s : State) (rs re cs ce : Nat), rs ≤ re → re ≤ 7 → cs ≤ ce → ce ≤ 127 →
    ∃ t d, exec (.xlate rs re cs ce) s = .next t ∧ t.responses = s.responses ++ [⟨.ok, d⟩] ∧
      (∀ row, row ≤ 7 → (rs ≤ row ∧ row ≤ re ↔
        (d.extractLsb' 8 8).toNat ≤ 7 - row ∧ 7 - row ≤ (d.extractLsb' 0 8).toNat)) ∧
      ∀ col, cs ≤ col ∧ col ≤ ce ↔ (d.extractLsb' 24 8).toNat ≤ col ∧ col ≤ (d.extractLsb' 16 8).toNat

/-- R75 and R78: a single row mirrors to a single page, and the row transform is its own inverse on `0..7`. -/
def Obligations.RowTransformMirrorsAndIsItsOwnInverse : Prop :=
  (∀ r cs ce, r ≤ 7 → cs ≤ ce → ce ≤ 127 → toNativeWindow ⟨r, r, cs, ce⟩ = some ⟨cs, ce, 7 - r, 7 - r⟩) ∧
  ∀ r, r ≤ 7 → logicalRowToNativePage r = 7 - r ∧ logicalRowToNativePage (logicalRowToNativePage r) = r

/-- R79: XLATE reads no state and writes no state, accepted or refused: any two states get the same response and are left
as they were. -/
def Obligations.XlateReadsAndWritesNoState : Prop :=
  ∀ (s s' : State) (rs re cs ce : Nat),
    ∃ r : Response, exec (.xlate rs re cs ce) s = .next { s with responses := s.responses ++ [r] } ∧
      exec (.xlate rs re cs ce) s' = .next { s' with responses := s'.responses ++ [r] }

/-! ### Readback (43_scratch_readback.md) -/

/-- R80: the word `{0x03, i, B, C, D}`. A nonzero reserved field is illegal; `i ≥ SLEN` is `InvalidIndex`; otherwise the
answer is OK with `SCR[i]`. The state is unchanged but for the response. The assembler writes it `rdscr i`. -/
def Obligations.RdscrReadsAValidByte : Prop :=
  ∀ (s : State) (i b c d : Byte),
    ((b ≠ 0 ∨ c ≠ 0 ∨ d ≠ 0) → runWord (packWord 0x03 i b c d) s =
      .next { s with responses := s.responses ++ [⟨.illegalOperation, 0⟩] }) ∧
    runWord (packWord 0x03 i 0x00 0x00 0x00) s = exec (.rdscr i.toNat) s ∧
    assembleLine (['r', 'd', 's', 'c', 'r', ' '] ++ decimal i.toNat) = .ok [packWord 0x03 i 0x00 0x00 0x00] ∧
    (s.slen ≤ i.toNat →
      exec (.rdscr i.toNat) s = .next { s with responses := s.responses ++ [⟨.invalidIndex, 0⟩] }) ∧
    (s.slen ≤ s.cfg.cap → i.toNat < s.slen →
      ∃ v : Data, exec (.rdscr i.toNat) s = .next { s with responses := s.responses ++ [⟨.ok, v⟩] } ∧
        v.toNat = (Memory.read s.scr i.toNat).toNat)

/-- R81: the word `{0x04, k, B, C, D}`. As RDSCR, but the answer is wire byte `k`, which is `SCR[SLEN-1-k]`.
The assembler writes it `rdwire k`. -/
def Obligations.RdwireReadsInReverseOrder : Prop :=
  ∀ (s : State) (k b c d : Byte),
    ((b ≠ 0 ∨ c ≠ 0 ∨ d ≠ 0) → runWord (packWord 0x04 k b c d) s =
      .next { s with responses := s.responses ++ [⟨.illegalOperation, 0⟩] }) ∧
    runWord (packWord 0x04 k 0x00 0x00 0x00) s = exec (.rdwire k.toNat) s ∧
    assembleLine (['r', 'd', 'w', 'i', 'r', 'e', ' '] ++ decimal k.toNat) = .ok [packWord 0x04 k 0x00 0x00 0x00] ∧
    (s.slen ≤ k.toNat →
      exec (.rdwire k.toNat) s = .next { s with responses := s.responses ++ [⟨.invalidIndex, 0⟩] }) ∧
    (s.slen ≤ s.cfg.cap → k.toNat < s.slen →
      ∃ v : Data, exec (.rdwire k.toNat) s = .next { s with responses := s.responses ++ [⟨.ok, v⟩] } ∧
        v.toNat = (Memory.read s.scr (s.slen - 1 - k.toNat)).toNat)

/-- R82: the word `{0x05, A, B, C, D}`. A nonzero field is illegal; otherwise the answer is OK with `SLEN`. The
assembler writes it `rdlen`. -/
def Obligations.RdlenAnswersTheValidLength : Prop :=
  ∀ (s : State) (a b c d : Byte),
    ((a ≠ 0 ∨ b ≠ 0 ∨ c ≠ 0 ∨ d ≠ 0) → runWord (packWord 0x05 a b c d) s =
      .next { s with responses := s.responses ++ [⟨.illegalOperation, 0⟩] }) ∧
    runWord (packWord 0x05 0x00 0x00 0x00 0x00) s = exec .rdlen s ∧
    assembleLine ['r', 'd', 'l', 'e', 'n'] = .ok [packWord 0x05 0x00 0x00 0x00 0x00] ∧
    ∃ v : Data, exec .rdlen s = .next { s with responses := s.responses ++ [⟨.ok, v⟩] } ∧
      (s.Inv → v.toNat = s.slen)

/-- R83: the word `{0x06, A, B, C, D}`. A nonzero field is illegal; otherwise the answer is OK with `CAP`, the same in
every state of a block. The assembler writes it `rdcap`. -/
def Obligations.RdcapAnswersTheCapacity : Prop :=
  ∀ (s : State) (a b c d : Byte),
    ((a ≠ 0 ∨ b ≠ 0 ∨ c ≠ 0 ∨ d ≠ 0) → runWord (packWord 0x06 a b c d) s =
      .next { s with responses := s.responses ++ [⟨.illegalOperation, 0⟩] }) ∧
    runWord (packWord 0x06 0x00 0x00 0x00 0x00) s = exec .rdcap s ∧
    assembleLine ['r', 'd', 'c', 'a', 'p'] = .ok [packWord 0x06 0x00 0x00 0x00 0x00] ∧
    ∃ v : Data, exec .rdcap s = .next { s with responses := s.responses ++ [⟨.ok, v⟩] } ∧
      (s.cfg.valid → v.toNat = s.cfg.cap)

/-- R84: a full readout in wire order yields `SCR[SLEN-1], ..., SCR[0]`, one in scratch order `SCR[0], ..., SCR[SLEN-1]`,
and neither changes anything else; the bytes are those of the most recent successful SCALE. -/
def Obligations.FullReadoutYieldsTheColumn : Prop :=
  ∀ s : State, s.Inv →
    runEvents (requests ((List.range s.slen).map .rdwire)) s =
      .next { s with inputs := [], responses := s.responses ++
        ((List.range s.slen).map (Memory.read s.scr)).reverse.map (fun v => ⟨.ok, v.zeroExtend 32⟩) } ∧
    runEvents (requests ((List.range s.slen).map .rdscr)) s =
      .next { s with inputs := [], responses := s.responses ++
        ((List.range s.slen).map (Memory.read s.scr)).map (fun v => ⟨.ok, v.zeroExtend 32⟩) } ∧
    ∀ g f, s.Holds (some (g, f)) → (List.range s.slen).map (Memory.read s.scr) = scaleColumn g f

/-- R34, the frame of XLATE, RDSCR, RDWIRE, RDLEN and RDCAP: where one of them answers a next state, every field of the
state but the response log is unchanged, every byte of memory reads as before, and repeating it in any state with the same
`SCR`, `SLEN` and `CAP` gives the same response. SCALE issued twice leaves the state the second time exactly as the first
time left it. -/
def Obligations.ReadsChangeNothingAndRepeat : Prop :=
  (∀ (i : Instr) (s t : State), (∀ g f, i ≠ .scale g f) → exec i s = .next t →
    ∃ r, t = { s with responses := s.responses ++ [r] } ∧ (∀ a, Memory.read t.scr a = Memory.read s.scr a) ∧
      ∀ u : State, u.scr = s.scr → u.slen = s.slen → u.cfg = s.cfg →
        exec i u = .next { u with responses := u.responses ++ [r] }) ∧
  ∀ (g : Byte) (f : Nat) (s : State), ∃ t u r, exec (.scale g f) s = .next t ∧ exec (.scale g f) t = .next u ∧
    u = { t with responses := t.responses ++ [r] }

/-! ### The machine (00_scope.md R8, 10_state.md, 20_memory.md R37, 60_exceptions.md, 70_reset_and_hazards.md) -/

/-- A step runs the decoded instruction: the request taken is removed from the inputs, and nothing else is added. -/
def Obligations.StepRunsTheDecodedInstruction : Prop :=
  ∀ (s : State) (w : Word40) (es : List Event) (i : Instr), s.inputs = .request w :: es → decode w = .ok i →
    step s = exec i { s with inputs := es }

/-- The invariant holds after reset, at the spec's default capacity and at every legal one (the model's choices for
`State.reset`: log 1, log 2). -/
def Obligations.ResetMeetsTheInvariant : Prop :=
  State.reset.Inv ∧ State.reset.slen = 0 ∧ ∀ c : Config, c.valid → (State.resetWith c).Inv

/-- The invariant of R13 (with a legal `CAP` and the canonical memory) is kept by every step, from every state. -/
def Obligations.StepKeepsTheInvariant : Prop :=
  ∀ s t : State, s.Inv → step s = .next t → t.Inv

/-- The step is total: from a state that meets the invariant no step faults and none is refused (R8), so every run of
requests and resets completes. -/
def Obligations.EveryRunCompletes : Prop :=
  ∀ (s : State) (es : List Event), s.Inv → SafeRun es s

/-- R13 along a run, from any state that holds the result of a most recent successful SCALE `h` (or none): after any
requests and resets, `SLEN` and `SCR` are those of the most recent successful SCALE since the last reset (that a refused
SCALE keeps them is the spec's own choice D15, log 15). -/
def Obligations.RunHoldsTheMostRecentSuccessfulScale : Prop :=
  ∀ (s : State) (h : Option (Byte × Nat)) (es : List Event), s.Inv → s.Holds h →
    ∃ t, runEvents es s = .next t ∧ t.Inv ∧ t.Holds (es.foldl (track s.cfg) h)

/-- With `SLEN = 0` the contents of `SCR` are unobservable (R13, R21): whatever they are, a request gets the same response,
and afterwards either `SLEN` is still 0 or the two blocks are equal in `SCR` and `SLEN`. -/
def Obligations.UnwrittenScratchIsUnobservable : Prop :=
  ∀ (s : State) (m : Memory) (w : Word40), s.slen = 0 →
    ∃ t t' r, runWord w s = .next t ∧ runWord w { s with scr := m } = .next t' ∧
      t.responses = s.responses ++ [r] ∧ t'.responses = s.responses ++ [r] ∧ t.slen = t'.slen ∧
      (t.slen ≠ 0 → t.scr = t'.scr)

/-- R110: a reset between requests sets `SLEN` to 0 and leaves `CAP`, the later requests and the responses as they were;
every scratch byte is a free value (the model's, log 3). -/
def Obligations.ResetClearsTheLengthOnly : Prop :=
  ∀ (s : State) (es : List Event), s.inputs = .reset :: es →
    ∃ t, step s = .next t ∧ t.slen = 0 ∧ t.cfg = s.cfg ∧ t.inputs = es ∧ t.responses = s.responses ∧
      (∀ a, a < s.cfg.cap → Memory.read t.scr a = Config.scrAfterReset s.draws a) ∧ t.draws = s.draws + 1

/-- R112: with `SLEN = 0` (after reset), and as long as no SCALE succeeds, `SLEN` stays 0, every RDSCR and RDWIRE is
answered `InvalidIndex`, and RDLEN answers 0. -/
def Obligations.NothingIsReadableBeforeTheFirstScale : Prop :=
  ∀ (s : State) (es : List Event), s.Inv → s.slen = 0 →
    (∀ w g f, Event.request w ∈ es → decode w = .ok (.scale g f) → f = 0 ∨ s.cfg.cap < f) →
    ∃ t, runEvents es s = .next t ∧ t.slen = 0 ∧
      (∀ i, exec (.rdscr i) t = .next { t with responses := t.responses ++ [⟨.invalidIndex, 0⟩] }) ∧
      (∀ k, exec (.rdwire k) t = .next { t with responses := t.responses ++ [⟨.invalidIndex, 0⟩] }) ∧
      exec .rdlen t = .next { t with responses := t.responses ++ [⟨.ok, 0⟩] }

/-- R11 and R12 as a rule of the whole machine: a step that changes `SLEN` or any byte of `SCR` is a reset or an accepted
SCALE. -/
def Obligations.OnlyScaleAndResetWriteTheScratch : Prop :=
  ∀ s t : State, step s = .next t → (t.slen ≠ s.slen ∨ ∃ a, Memory.read t.scr a ≠ Memory.read s.scr a) →
    (∃ es, s.inputs = .reset :: es ∧ t.slen = 0) ∨
    ∃ w es g f, s.inputs = .request w :: es ∧ decode w = .ok (.scale g f) ∧ 1 ≤ f ∧ f ≤ s.cfg.cap ∧ t.slen = f

/-- R22: no request and no reset changes the configuration. -/
def Obligations.NoStepChangesTheConfiguration : Prop :=
  ∀ s t : State, step s = .next t → t.cfg = s.cfg

/-- R16: no status is kept: what was answered before has no influence on a step. -/
def Obligations.PastResponsesHaveNoInfluence : Prop :=
  ∀ (s t : State) (past : List Response), step s = .next t →
    ∃ new, t.responses = s.responses ++ new ∧
      step { s with responses := past } = .next { t with responses := past ++ new }

/-- R37: requests take effect in the order presented: after a sequence `a`, a sequence `b` behaves as if it were presented
to the state `a` left; and each request of `a` was answered before `b` was accepted. -/
def Obligations.RequestsTakeEffectInOrder : Prop :=
  ∀ (s : State) (a b : List Event), s.Inv →
    ∃ t, runEvents a s = .next t ∧ runEvents (a ++ b) s = runEvents b t ∧
      t.responses.length = s.responses.length + a.countP (fun e => decide (e ≠ .reset))

/-- R20, with R114 and R115: a read returns the bytes of the most recent successful SCALE, whoever issued it. After a
SCALE `(g, f)` a second accepted SCALE replaces the bytes; a refused one leaves the old bytes readable (the spec's own
choice D15, log 15). -/
def Obligations.LaterScaleReplacesRefusedScaleKeeps : Prop :=
  ∀ (s : State) (g g' : Byte) (f f' i : Nat), 1 ≤ f → f ≤ s.cfg.cap →
    ∃ t u, exec (.scale g f) s = .next t ∧ exec (.scale g' f') t = .next u ∧
      (1 ≤ f' → f' ≤ s.cfg.cap → i < f' →
        exec (.rdscr i) u = .next { u with responses := u.responses ++ [⟨.ok, (scaledByte g' f' i).zeroExtend 32⟩] }) ∧
      ((f' = 0 ∨ s.cfg.cap < f') → i < f →
        exec (.rdscr i) u = .next { u with responses := u.responses ++ [⟨.ok, (scaledByte g f i).zeroExtend 32⟩] })

/-- R96 and R98: a request answered with an error carries no data and leaves the state exactly as it was; repeating it
gives the same error. -/
def Obligations.ErrorsChangeNothingAndRepeat : Prop :=
  ∀ (s t : State) (w : Word40) (r : Response), runWord w s = .next t → t.responses = s.responses ++ [r] →
    r.status ≠ .ok →
    r.data = 0 ∧ t = { s with responses := s.responses ++ [r] } ∧
      runWord w t = .next { t with responses := t.responses ++ [r] }

/-! ### Assembly language (30_encoding.md R53 to R55) -/

/-- Assembling what the disassembler prints gives the word back, for every word, and the words it calls illegal are exactly
those that do not decode (R53, R55; the text conventions of log 11). -/
def Obligations.AssemblingTheDisassemblyGivesTheWord : Prop :=
  ∀ w : Word40, assembleLine (disassemble w).text = .ok [w] ∧
    ((disassemble w).illegal = true ↔ ∀ i, decode w ≠ .ok i)

/-- R54: the pseudo-instructions expand to their words where their condition holds and every operand, written or computed,
is in `0..255`, and are refused otherwise. -/
def Obligations.PseudoInstructionsExpandAsListed : Prop :=
  (∀ r cs ce, Stmt.words (.xlate1 r cs ce) = Stmt.words (.op (.xlate r r cs ce))) ∧
  (∀ n, Stmt.words (.emit n) = if 1 ≤ n ∧ n ≤ 8 then
      .ok ((List.range n).map (fun k => packWord 0x04 (BitVec.ofNat 8 k) 0x00 0x00 0x00)) else .error .outOfRange) ∧
  (∀ n, Stmt.words (.dump n) = if 1 ≤ n ∧ n ≤ 8 then
      .ok ((List.range n).map (fun k => packWord 0x03 (BitVec.ofNat 8 k) 0x00 0x00 0x00)) else .error .outOfRange) ∧
  ∀ (g : Byte) (f r c j : Nat), Stmt.words (.glyphcol g f r c j) =
    if 1 ≤ f ∧ f ≤ 8 ∧ j ≤ 7 ∧ r + f - 1 ≤ 255 ∧ c + j * f + f - 1 ≤ 255 then
      .ok (packWord 0x01 g (BitVec.ofNat 8 f) 0x00 0x00 ::
        packWord 0x02 (BitVec.ofNat 8 r) (BitVec.ofNat 8 (r + f - 1)) (BitVec.ofNat 8 (c + j * f))
          (BitVec.ofNat 8 (c + j * f + f - 1)) ::
        (List.range f).map (fun k => packWord 0x04 (BitVec.ofNat 8 k) 0x00 0x00 0x00))
    else .error .outOfRange

/-! ### Composition, the host's contract (44_glyph_composition.md) -/

/-- R89: a glyph fits iff XLATE accepts the window of each of its eight source bytes. -/
def Obligations.GlyphFitsIffEveryWindowIsAccepted : Prop :=
  ∀ f r c : Nat, 1 ≤ f → (glyphFits f r c = true ↔ ∀ j, j ≤ 7 → (glyphRect f r c j).inBounds = true)

/-- R89: a step whose SCALE or whose window is refused sends nothing. -/
def Obligations.RefusedStepSendsNothing : Prop :=
  ∀ (s : State) (h : HRepeat) (g : Byte) (f r c j : Nat), s.Inv → f < 256 → (glyphXlate f r c j).wf = true →
    (f = 0 ∨ s.cfg.cap < f ∨ ¬ (glyphRect f r c j).inBounds = true) →
    ∃ t, composeStep h g f r c j s = some ([], t)

/-- R87 and R91, under the page-first assumption about the controller (log 12): the step of source byte `j` of a glyph that
fits sends `HREPEAT * f` data bytes (R90: `HREPEAT` is 1 or `f`), scratch byte `i` lands on the native page of logical row
`r + i`, in each of the `HREPEAT` columns it is streamed to, and every byte lands inside the window. -/
def Obligations.ComposedBytesLandOnTheirRows : Prop :=
  ∀ (s : State) (h : HRepeat) (g : Byte) (f r c j : Nat), s.Inv → 1 ≤ f → f ≤ s.cfg.cap → glyphFits f r c = true →
    j ≤ 7 →
    ∃ items t, composeStep h g f r c j s = some (items, t) ∧ (placed items).length = h.count f * f ∧
      (∀ i q, i < f → q < h.count f →
        Placed.mk (c + j * f + q) (logicalRowToNativePage (r + i)) (scaledByte g f i) ∈ placed items) ∧
      ∀ p ∈ placed items, c + j * f ≤ p.column ∧ p.column ≤ c + j * f + f - 1 ∧ p.column ≤ 127 ∧
        7 - (r + f - 1) ≤ p.page ∧ p.page ≤ 7 - r

/-- R86 to R88 (for both values of the `HREPEAT` of R90, log 12): a glyph that fits is sent source byte by source byte,
each one's window (columns `c + j*f` to `c + j*f + f - 1`, the pages of rows `r` to `r + f - 1`) directly before its own
scaled bytes in wire order; nothing is batched. -/
def Obligations.GlyphWindowsAndDataInterleave : Prop :=
  ∀ (s : State) (h : HRepeat) (f r c : Nat) (gs : List Byte), s.Inv → 1 ≤ f → f ≤ s.cfg.cap → glyphFits f r c = true →
    gs.length ≤ 8 →
    ∃ t, composeGlyph h f r c 0 gs s = some (gs.zipIdx.flatMap (fun p =>
      .setColumnRange (BitVec.ofNat 8 (c + p.2 * f)) (BitVec.ofNat 8 (c + p.2 * f + f - 1)) ::
      .setPageRange (BitVec.ofNat 8 (7 - (r + f - 1))) (BitVec.ofNat 8 (7 - r)) ::
      (h.stream f (scaleColumn p.1 f).reverse).map .data), t)

/-! ### The observation of a run (70_reset_and_hazards.md R120) -/

/-- R120: a run ends with the response to its last request, so a reset after it changes nothing that is observed; what is
observed is the responses to the run's own requests, one each, in order after those delivered before, and the final
`(SCR, SLEN)`. It depends on the start state's `CAP`, `SCR`, `SLEN` (and the model's draw counter, log 3) alone. -/
def Obligations.RunObservesItsOwnResponses : Prop :=
  ∀ (s : State) (es : List Event), s.Inv →
    ∃ o, observeRun es s = .next o ∧ o.responses.length = es.countP (fun e => decide (e ≠ .reset)) ∧
      observeRun (es ++ [.reset]) s = .next o ∧
      (∀ u : State, u.cfg = s.cfg → u.scr = s.scr → u.slen = s.slen → u.draws = s.draws → observeRun es u = .next o) ∧
      ∀ a w, es = a ++ [.request w] →
        ∃ t, runEvents es s = .next t ∧ t.responses = s.responses ++ o.responses ∧ o.slen = t.slen ∧
          o.scr.length = s.cfg.cap ∧ ∀ i, i < s.cfg.cap → o.scr[i]? = some (Memory.read t.scr i)
end

