-- ==== Sys2Proof/Laws/Composition.lean ====
section
/-! SUPPORT. What the host's definitions of Machine/Composition.lean do: the repeat count (R90), the length of a stream,
and where a data byte lands inside a window (R91). -/

namespace Sys2Proof.Machine

@[simp] theorem HRepeat.count_once (f : Nat) : HRepeat.count f .once = 1 := rfl
@[simp] theorem HRepeat.count_perColumn (f : Nat) : HRepeat.count f .perColumn = f := rfl

theorem HRepeat.one_le_count (h : HRepeat) (f : Nat) (hf : 1 ≤ f) : 1 ≤ h.count f := by
  cases h
  · exact Nat.le_refl 1
  · exact hf

/-- R90: the ScaledColumn is never streamed more often than the window has columns. -/
theorem HRepeat.count_le (h : HRepeat) (f : Nat) (hf : 1 ≤ f) : h.count f ≤ f := by
  cases h
  · exact hf
  · exact Nat.le_refl f

@[simp] theorem HRepeat.length_stream (h : HRepeat) (f : Nat) (bs : List Byte) :
    (h.stream f bs).length = h.count f * bs.length := by
  simp [HRepeat.stream]

/-- Inside the window: one column at a time, from the first page to the last. -/
theorem Cursor.place_within (k : Cursor) (h : k.columnStart + k.taken / (k.pageEnd - k.pageStart + 1) ≤ k.columnEnd) :
    k.place = (k.columnStart + k.taken / (k.pageEnd - k.pageStart + 1),
      k.pageStart + k.taken % (k.pageEnd - k.pageStart + 1)) := if_pos h

@[simp] theorem placeItems_nil (k : Cursor) : placeItems k [] = [] := rfl

@[simp] theorem placeItems_setColumnRange (k : Cursor) (a b : Byte) (items : List BusItem) :
    placeItems k (.setColumnRange a b :: items) =
      placeItems { k with columnStart := a.toNat, columnEnd := b.toNat, taken := 0 } items := rfl

@[simp] theorem placeItems_setPageRange (k : Cursor) (a b : Byte) (items : List BusItem) :
    placeItems k (.setPageRange a b :: items) =
      placeItems { k with pageStart := a.toNat, pageEnd := b.toNat, taken := 0 } items := rfl

@[simp] theorem placeItems_data (k : Cursor) (b : Byte) (items : List BusItem) :
    placeItems k (.data b :: items) =
      ⟨k.place.1, k.place.2, b⟩ :: placeItems { k with taken := k.taken + 1 } items := rfl

end Sys2Proof.Machine
end

