-- ==== Sys2Proof/Laws/Decode.lean ====
section
/-! SUPPORT. The fields of a packed word, and the word of its fields. -/

namespace Sys2Proof

/-- The bits of a packed word. -/
theorem getLsbD_packWord (o a b c d : Byte) (i : Nat) : (packWord o a b c d).getLsbD i =
    if i < 8 then d.getLsbD i else if i < 16 then c.getLsbD (i - 8) else if i < 24 then b.getLsbD (i - 16)
    else if i < 32 then a.getLsbD (i - 24) else o.getLsbD (i - 32) := by
  change BitVec.getLsbD (w := 8 + 8 + 8 + 8 + 8) (o ++ a ++ b ++ c ++ d) i = _
  simp only [BitVec.getLsbD_append, Nat.sub_sub]
  split_ifs <;> first | rfl | omega

theorem packWord_fields (o a b c d : Byte) :
    fieldOpc (packWord o a b c d) = o ∧ fieldA (packWord o a b c d) = a ∧ fieldB (packWord o a b c d) = b ∧
    fieldC (packWord o a b c d) = c ∧ fieldD (packWord o a b c d) = d := by
  refine ⟨?_, ?_, ?_, ?_, ?_⟩ <;>
  · apply BitVec.eq_of_getLsbD_eq
    intro i hi
    simp only [fieldOpc, fieldA, fieldB, fieldC, fieldD, BitVec.getLsbD_extractLsb', getLsbD_packWord, hi,
      decide_true, Bool.true_and]
    split_ifs <;> first | omega | (congr 1; omega)

theorem packWord_of_fields (w : Word40) :
    packWord (fieldOpc w) (fieldA w) (fieldB w) (fieldC w) (fieldD w) = w := by
  apply BitVec.eq_of_getLsbD_eq
  intro i hi
  simp only [fieldOpc, fieldA, fieldB, fieldC, fieldD, BitVec.getLsbD_extractLsb', getLsbD_packWord]
  split_ifs <;>
  · rw [decide_eq_true (by omega), Bool.true_and]
    congr 1
    omega

/-- A word matches a row iff the masked fields are the row's, field by field. -/
theorem packWord_and (o a b c d o' a' b' c' d' : Byte) :
    packWord o a b c d &&& packWord o' a' b' c' d' =
      packWord (o &&& o') (a &&& a') (b &&& b') (c &&& c') (d &&& d') := by
  apply BitVec.eq_of_getLsbD_eq
  intro i hi
  simp only [BitVec.getLsbD_and, getLsbD_packWord]
  split_ifs <;> rfl

theorem packWord_inj (o a b c d o' a' b' c' d' : Byte) :
    packWord o a b c d = packWord o' a' b' c' d' ↔ o = o' ∧ a = a' ∧ b = b' ∧ c = c' ∧ d = d' := by
  constructor
  · intro h
    have h1 := packWord_fields o a b c d
    rw [h] at h1
    have h2 := packWord_fields o' a' b' c' d'
    exact ⟨h1.1.symm.trans h2.1, h1.2.1.symm.trans h2.2.1, h1.2.2.1.symm.trans h2.2.2.1,
      h1.2.2.2.1.symm.trans h2.2.2.2.1, h1.2.2.2.2.symm.trans h2.2.2.2.2⟩
  · rintro ⟨rfl, rfl, rfl, rfl, rfl⟩; rfl

/-- Selecting a row, field by field (R43, R48): the operation code, and zero in the reserved fields. -/
theorem selects_packWord (op : Op) (o a b c d : Byte) :
    op.selects (packWord o a b c d) = true ↔
      o = op.opcode ∧
        (match op with
         | .scale => c = 0 ∧ d = 0
         | .xlate => True
         | .rdscr => b = 0 ∧ c = 0 ∧ d = 0
         | .rdwire => b = 0 ∧ c = 0 ∧ d = 0
         | .rdlen => a = 0 ∧ b = 0 ∧ c = 0 ∧ d = 0
         | .rdcap => a = 0 ∧ b = 0 ∧ c = 0 ∧ d = 0) := by
  have hm : op.maskBits = packWord (fieldOpc op.maskBits) (fieldA op.maskBits) (fieldB op.maskBits)
      (fieldC op.maskBits) (fieldD op.maskBits) := (packWord_of_fields _).symm
  have hb : op.matchBits = packWord (fieldOpc op.matchBits) (fieldA op.matchBits) (fieldB op.matchBits)
      (fieldC op.matchBits) (fieldD op.matchBits) := (packWord_of_fields _).symm
  have hff : ∀ x : Byte, x &&& 0xFF#8 = x := by decide
  rw [Op.selects, beq_iff_eq, hm, hb, packWord_and, packWord_inj]
  cases op <;>
    simp [Op.maskBits, Op.matchBits, Op.opcode, fieldOpc, fieldA, fieldB, fieldC, fieldD, BitVec.extractLsb', hff]

theorem opcode_inj (op op' : Op) (h : op.opcode = op'.opcode) : op = op' := by
  revert h
  cases op <;> cases op' <;> decide

theorem operands_op (op : Op) (w : Word40) : (op.operands w).op = op := by cases op <;> rfl

/-- The decoder reads the row a word selects. -/
theorem decode_of_selects (op : Op) (w : Word40) (h : op.selects w = true) : decode w = .ok (op.operands w) := by
  have only : ∀ op', op'.selects w = true → op' = op := by
    intro op' h'
    rw [← packWord_of_fields w] at h h'
    have h1 := ((selects_packWord op _ _ _ _ _).1 h).1
    have h2 := ((selects_packWord op' _ _ _ _ _).1 h').1
    exact opcode_inj _ _ (h2.symm.trans h1)
  unfold decode
  cases hf : Op.all.find? (fun op => op.selects w) with
  | none =>
    rw [List.find?_eq_none] at hf
    exact absurd h (hf op (by cases op <;> decide))
  | some o => rw [only o (List.find?_some (p := fun op : Op => op.selects w) hf)]

/-- What decodes was read from a row its word selects. -/
theorem selects_of_decode (w : Word40) (i : Instr) (h : decode w = .ok i) :
    ∃ op : Op, op.selects w = true ∧ op.operands w = i := by
  unfold decode at h
  split at h
  · rename_i op ho
    exact ⟨op, List.find?_some (p := fun op : Op => op.selects w) ho, Except.ok.inj h⟩
  · cases h

/-- A word that selects no row does not decode. -/
theorem decode_of_not_selects (w : Word40) (h : ∀ op : Op, op.selects w = false) :
    decode w = .error (illegalReason w) := by
  unfold decode
  rw [List.find?_eq_none.2 (by intro op _; simp [h op])]

end Sys2Proof
end

