-- ==== Sys2Proof/Laws/Memory.lean ====
section
/-! SUPPORT. The laws of the scratch memory: read after write, the frame of a write, and that every operation keeps the
canonical form, so that equal memories are equal data. -/

namespace Sys2Proof.Machine

@[simp] theorem Memory.read_nil (a : Nat) : Memory.read [] a = 0 := rfl

theorem Memory.read_cons (k : Nat) (v : Byte) (m : Memory) (a : Nat) :
    Memory.read ((k, v) :: m) a = if k = a then v else Memory.read m a := rfl

theorem Memory.wf_cons (k : Nat) (v : Byte) (m : Memory) :
    Memory.wf ((k, v) :: m) = true ↔ v ≠ 0 ∧ (∀ c ∈ m, k < c.1) ∧ Memory.wf m = true := by
  simp [Memory.wf, and_assoc]

/-- An address below every listed one reads `0x00`. -/
theorem Memory.read_of_below (m : Memory) (a : Nat) (h : ∀ c ∈ m, a < c.1) : Memory.read m a = 0 := by
  induction m with
  | nil => rfl
  | cons c m ih =>
    have hc : c.1 ≠ a := by have := h c (by simp); omega
    rw [Memory.read_cons, if_neg hc]
    exact ih (fun d hd => h d (by simp [hd]))

theorem Memory.read_write_same (m : Memory) (a : Nat) (v : Byte) (h : Memory.wf m = true) :
    Memory.read (Memory.write m a v) a = v := by
  induction m with
  | nil =>
    unfold Memory.write
    split
    · rename_i hv; simp [hv]
    · simp [Memory.read_cons]
  | cons c m ih =>
    obtain ⟨k, x⟩ := c
    obtain ⟨-, hlt, hm⟩ := (Memory.wf_cons k x m).1 h
    unfold Memory.write
    split
    · rename_i hak
      split
      · subst v
        exact Memory.read_of_below _ _ (by
          intro d hd
          rcases List.mem_cons.1 hd with rfl | hd
          · exact hak
          · exact hak.trans (hlt d hd))
      · simp [Memory.read_cons]
    · split
      · rename_i hak
        subst hak
        split
        · subst v
          exact Memory.read_of_below _ _ hlt
        · simp [Memory.read_cons]
      · rename_i h1 h2
        rw [Memory.read_cons, if_neg (by omega)]
        exact ih hm

theorem Memory.read_write_other (m : Memory) (a b : Nat) (v : Byte) (h : b ≠ a) :
    Memory.read (Memory.write m a v) b = Memory.read m b := by
  induction m with
  | nil =>
    unfold Memory.write
    split
    · rfl
    · simp [Memory.read_cons, Ne.symm h]
  | cons c m ih =>
    obtain ⟨k, x⟩ := c
    unfold Memory.write
    split
    · split <;> simp [Memory.read_cons, Ne.symm h]
    · split
      · rename_i hak
        subst hak
        split <;> simp [Memory.read_cons, Ne.symm h]
      · simp [Memory.read_cons, ih]

/-- A property of addresses that the written address and every listed address have, every address listed after has. -/
theorem Memory.forall_write (P : Nat → Prop) (m : Memory) (a : Nat) (v : Byte) (ha : P a) (h : ∀ c ∈ m, P c.1) :
    ∀ c ∈ Memory.write m a v, P c.1 := by
  induction m with
  | nil =>
    unfold Memory.write
    split <;> simp [ha]
  | cons c m ih =>
    obtain ⟨k, x⟩ := c
    have hk : P k := h (k, x) (by simp)
    have hm : ∀ d ∈ m, P d.1 := fun d hd => h d (by simp [hd])
    unfold Memory.write
    split
    · split
      · exact h
      · intro d hd
        rcases List.mem_cons.1 hd with rfl | hd
        · exact ha
        · exact h d hd
    · split
      · split
        · exact hm
        · intro d hd
          rcases List.mem_cons.1 hd with rfl | hd
          · exact ha
          · exact hm d hd
      · intro d hd
        rcases List.mem_cons.1 hd with rfl | hd
        · exact hk
        · exact ih hm d hd

theorem Memory.wf_write (m : Memory) (a : Nat) (v : Byte) (h : Memory.wf m = true) :
    Memory.wf (Memory.write m a v) = true := by
  induction m with
  | nil =>
    unfold Memory.write
    split
    · rfl
    · rename_i hv; exact (Memory.wf_cons _ _ _).2 ⟨hv, by simp, rfl⟩
  | cons c m ih =>
    obtain ⟨k, x⟩ := c
    obtain ⟨hx, hlt, hm⟩ := (Memory.wf_cons k x m).1 h
    unfold Memory.write
    split
    · rename_i hak
      split
      · exact h
      · rename_i hv
        refine (Memory.wf_cons _ _ _).2 ⟨hv, ?_, h⟩
        intro d hd
        rcases List.mem_cons.1 hd with rfl | hd
        · exact hak
        · exact hak.trans (hlt d hd)
    · split
      · rename_i hak
        split
        · exact hm
        · rename_i hv
          exact (Memory.wf_cons _ _ _).2 ⟨hv, by subst hak; exact hlt, hm⟩
      · exact (Memory.wf_cons _ _ _).2
          ⟨hx, Memory.forall_write (fun n => k < n) m a v (by omega) hlt, ih hm⟩

theorem Memory.inRange_iff (m : Memory) (cap : Nat) : Memory.inRange m cap = true ↔ ∀ c ∈ m, c.1 < cap := by
  simp [Memory.inRange]

theorem Memory.inRange_write (m : Memory) (cap a : Nat) (v : Byte) (h : Memory.inRange m cap = true) (ha : a < cap) :
    Memory.inRange (Memory.write m a v) cap = true :=
  (Memory.inRange_iff _ _).2 (Memory.forall_write (· < cap) m a v ha ((Memory.inRange_iff _ _).1 h))

/-- What is not in the scratch space reads `0x00`. -/
theorem Memory.read_of_inRange (m : Memory) (cap a : Nat) (h : Memory.inRange m cap = true) (ha : cap ≤ a) :
    Memory.read m a = 0 := by
  induction m with
  | nil => rfl
  | cons c m ih =>
    have hall := (Memory.inRange_iff _ _).1 h
    have hc : c.1 ≠ a := by have := hall c (by simp); omega
    rw [Memory.read_cons, if_neg hc]
    exact ih ((Memory.inRange_iff _ _).2 (fun d hd => hall d (by simp [hd])))

/-- In canonical form, equal memories are equal data. -/
theorem Memory.eq_of_read_eq (m m' : Memory) (h : Memory.wf m = true) (h' : Memory.wf m' = true)
    (hr : ∀ a, Memory.read m a = Memory.read m' a) : m = m' := by
  induction m generalizing m' with
  | nil =>
    cases m' with
    | nil => rfl
    | cons c m' =>
      have hv := ((Memory.wf_cons c.1 c.2 m').1 h').1
      have hc : Memory.read (c :: m') c.1 = c.2 := by rw [Memory.read_cons, if_pos rfl]
      exact absurd (hc.symm.trans (hr c.1).symm) hv
  | cons c m ih =>
    obtain ⟨k, x⟩ := c
    obtain ⟨hx, hlt, hm⟩ := (Memory.wf_cons k x m).1 h
    cases m' with
    | nil =>
      have := hr k
      simp [Memory.read_cons] at this
      exact absurd this hx
    | cons c' m' =>
      obtain ⟨k', x'⟩ := c'
      obtain ⟨hx', hlt', hm'⟩ := (Memory.wf_cons k' x' m').1 h'
      have hk : k = k' := by
        rcases Nat.lt_trichotomy k k' with hkk | hkk | hkk
        · have h1 := hr k
          rw [Memory.read_of_below ((k', x') :: m') k (by
            intro d hd
            rcases List.mem_cons.1 hd with rfl | hd
            · exact hkk
            · exact hkk.trans (hlt' d hd))] at h1
          simp [Memory.read_cons] at h1
          exact absurd h1 hx
        · exact hkk
        · have h1 := hr k'
          rw [Memory.read_of_below ((k, x) :: m) k' (by
            intro d hd
            rcases List.mem_cons.1 hd with rfl | hd
            · exact hkk
            · exact hkk.trans (hlt d hd))] at h1
          simp [Memory.read_cons] at h1
          exact absurd h1.symm hx'
      subst hk
      have hxx : x = x' := by have := hr k; simpa [Memory.read_cons] using this
      subst hxx
      congr 1
      refine ih m' hm hm' (fun a => ?_)
      by_cases ha : a = k
      · subst ha
        rw [Memory.read_of_below m a hlt, Memory.read_of_below m' a hlt']
      · have := hr a
        simpa [Memory.read_cons, Ne.symm ha] using this

/-! ### Filling from address 0 -/

@[simp] theorem Memory.fill_zero (v : Nat → Byte) : Memory.fill 0 v = [] := rfl

theorem Memory.fill_succ (n : Nat) (v : Nat → Byte) :
    Memory.fill (n + 1) v = Memory.write (Memory.fill n v) n (v n) := by
  simp [Memory.fill, List.range_succ]

theorem Memory.wf_fill (n : Nat) (v : Nat → Byte) : Memory.wf (Memory.fill n v) = true := by
  induction n with
  | zero => rfl
  | succ n ih => rw [Memory.fill_succ]; exact Memory.wf_write _ _ _ ih

theorem Memory.inRange_fill (n cap : Nat) (v : Nat → Byte) (h : n ≤ cap) :
    Memory.inRange (Memory.fill n v) cap = true := by
  induction n with
  | zero => rfl
  | succ n ih => rw [Memory.fill_succ]; exact Memory.inRange_write _ _ _ _ (ih (by omega)) (by omega)

theorem Memory.read_fill (n : Nat) (v : Nat → Byte) (a : Nat) :
    Memory.read (Memory.fill n v) a = if a < n then v a else 0 := by
  induction n with
  | zero => rfl
  | succ n ih =>
    rw [Memory.fill_succ]
    by_cases ha : a = n
    · subst ha
      rw [Memory.read_write_same _ _ _ (Memory.wf_fill _ _), if_pos (by omega)]
    · rw [Memory.read_write_other _ _ _ _ ha, ih]
      by_cases h : a < n
      · rw [if_pos h, if_pos (by omega)]
      · rw [if_neg h, if_neg (by omega)]

end Sys2Proof.Machine
end

