-- ==== Sys2Proof/Laws/PerInstr.lean ====
section
/-! SUPPORT. The family EncodesItsRow: the word of an instruction selects the row of its own operation (R48). -/

namespace Sys2Proof.Laws.EncodesItsRow

def Statement (i : Instr) : Prop := i.op.selects (encode i) = true

theorem scale (g : Byte) (f : Nat) : Statement (.scale g f) := (selects_packWord _ _ _ _ _ _).2 ⟨rfl, rfl, rfl⟩
theorem xlate (rs re cs ce : Nat) : Statement (.xlate rs re cs ce) := (selects_packWord _ _ _ _ _ _).2 ⟨rfl, trivial⟩
theorem rdscr (i : Nat) : Statement (.rdscr i) := (selects_packWord _ _ _ _ _ _).2 ⟨rfl, rfl, rfl, rfl⟩
theorem rdwire (k : Nat) : Statement (.rdwire k) := (selects_packWord _ _ _ _ _ _).2 ⟨rfl, rfl, rfl, rfl⟩
theorem rdlen : Statement .rdlen := (selects_packWord _ _ _ _ _ _).2 ⟨rfl, rfl, rfl, rfl, rfl⟩
theorem rdcap : Statement .rdcap := (selects_packWord _ _ _ _ _ _).2 ⟨rfl, rfl, rfl, rfl, rfl⟩

end Sys2Proof.Laws.EncodesItsRow
end

