-- ==== Sys2Proof/Laws/State.lean ====
section
/-! SUPPORT. One lemma per field per update of the state, so that no proof unfolds a record update. -/

namespace Sys2Proof.Machine

@[simp] theorem State.setScr_cfg (s : State) (m : Memory) : (s.setScr m).cfg = s.cfg := rfl
@[simp] theorem State.setScr_scr (s : State) (m : Memory) : (s.setScr m).scr = m := rfl
@[simp] theorem State.setScr_slen (s : State) (m : Memory) : (s.setScr m).slen = s.slen := rfl
@[simp] theorem State.setScr_inputs (s : State) (m : Memory) : (s.setScr m).inputs = s.inputs := rfl
@[simp] theorem State.setScr_responses (s : State) (m : Memory) : (s.setScr m).responses = s.responses := rfl
@[simp] theorem State.setScr_draws (s : State) (m : Memory) : (s.setScr m).draws = s.draws := rfl

@[simp] theorem State.setSlen_cfg (s : State) (n : Nat) : (s.setSlen n).cfg = s.cfg := rfl
@[simp] theorem State.setSlen_scr (s : State) (n : Nat) : (s.setSlen n).scr = s.scr := rfl
@[simp] theorem State.setSlen_slen (s : State) (n : Nat) : (s.setSlen n).slen = n := rfl
@[simp] theorem State.setSlen_inputs (s : State) (n : Nat) : (s.setSlen n).inputs = s.inputs := rfl
@[simp] theorem State.setSlen_responses (s : State) (n : Nat) : (s.setSlen n).responses = s.responses := rfl
@[simp] theorem State.setSlen_draws (s : State) (n : Nat) : (s.setSlen n).draws = s.draws := rfl

@[simp] theorem State.deliver_cfg (s : State) (r : Response) : (s.deliver r).cfg = s.cfg := rfl
@[simp] theorem State.deliver_scr (s : State) (r : Response) : (s.deliver r).scr = s.scr := rfl
@[simp] theorem State.deliver_slen (s : State) (r : Response) : (s.deliver r).slen = s.slen := rfl
@[simp] theorem State.deliver_inputs (s : State) (r : Response) : (s.deliver r).inputs = s.inputs := rfl
@[simp] theorem State.deliver_responses (s : State) (r : Response) : (s.deliver r).responses = s.responses ++ [r] := rfl
@[simp] theorem State.deliver_draws (s : State) (r : Response) : (s.deliver r).draws = s.draws := rfl

@[simp] theorem State.setInputs_cfg (s : State) (es : List Event) : (s.setInputs es).cfg = s.cfg := rfl
@[simp] theorem State.setInputs_scr (s : State) (es : List Event) : (s.setInputs es).scr = s.scr := rfl
@[simp] theorem State.setInputs_slen (s : State) (es : List Event) : (s.setInputs es).slen = s.slen := rfl
@[simp] theorem State.setInputs_inputs (s : State) (es : List Event) : (s.setInputs es).inputs = es := rfl
@[simp] theorem State.setInputs_responses (s : State) (es : List Event) : (s.setInputs es).responses = s.responses := rfl
@[simp] theorem State.setInputs_draws (s : State) (es : List Event) : (s.setInputs es).draws = s.draws := rfl

@[simp] theorem applyReset_cfg (s : State) : (applyReset s).cfg = s.cfg := rfl
@[simp] theorem applyReset_scr (s : State) : (applyReset s).scr = Memory.fill s.cfg.cap (Config.scrAfterReset s.draws) := rfl
@[simp] theorem applyReset_slen (s : State) : (applyReset s).slen = 0 := rfl
@[simp] theorem applyReset_inputs (s : State) : (applyReset s).inputs = s.inputs := rfl
@[simp] theorem applyReset_responses (s : State) : (applyReset s).responses = s.responses := rfl
@[simp] theorem applyReset_draws (s : State) : (applyReset s).draws = s.draws + 1 := rfl

@[simp] theorem State.resetWith_cfg (c : Config) : (State.resetWith c).cfg = c := rfl
@[simp] theorem State.resetWith_scr (c : Config) : (State.resetWith c).scr = [] := rfl
@[simp] theorem State.resetWith_slen (c : Config) : (State.resetWith c).slen = 0 := rfl
@[simp] theorem State.resetWith_inputs (c : Config) : (State.resetWith c).inputs = [] := rfl
@[simp] theorem State.resetWith_responses (c : Config) : (State.resetWith c).responses = [] := rfl
@[simp] theorem State.resetWith_draws (c : Config) : (State.resetWith c).draws = 0 := rfl

/-- The legal capacities, with the bound as a numeral (R5, R6). -/
theorem valid_iff (c : Config) : c.valid ↔ 1 ≤ c.cap ∧ c.cap ≤ 8 := Iff.rfl

end Sys2Proof.Machine
end

