-- ==== Sys2Proof/Laws/Readback.lean ====
section
/-! SUPPORT. Everything a scratch readback can do. -/

namespace Sys2Proof.Machine

theorem memRead_below (s : State) (a : Nat) (h : a < s.cfg.cap) : memRead s a = .ok (Memory.read s.scr a) := by
  simp [memRead, h]

theorem respondByte_below (s : State) (a : Nat) (h : a < s.cfg.cap) :
    respondByte a s = .next (s.deliver ⟨.ok, zextByte (Memory.read s.scr a)⟩) := by
  simp [respondByte, memRead_below s a h, respond]

/-- Where a readback answers a next state, it delivered one response and changed nothing else. -/
theorem respondByte_next (s t : State) (a : Nat) (h : respondByte a s = .next t) :
    a < s.cfg.cap ∧ t = s.deliver ⟨.ok, zextByte (Memory.read s.scr a)⟩ := by
  by_cases ha : a < s.cfg.cap
  · rw [respondByte_below s a ha] at h
    exact ⟨ha, (Host.Outcome.next.inj h).symm⟩
  · simp [respondByte, memRead, ha] at h

theorem execRdscr_refused (s : State) (i : Nat) (h : s.slen ≤ i) :
    execRdscr i s = .next (s.deliver ⟨.invalidIndex, 0⟩) := by
  simp [execRdscr, indexError, h, raiseError, respond]

theorem execRdscr_valid (s : State) (i : Nat) (h : i < s.slen) (hc : s.slen ≤ s.cfg.cap) :
    execRdscr i s = .next (s.deliver ⟨.ok, zextByte (Memory.read s.scr i)⟩) := by
  simp only [execRdscr, indexError, if_neg (Nat.not_le.2 h)]
  exact respondByte_below s i (by omega)

theorem execRdwire_refused (s : State) (k : Nat) (h : s.slen ≤ k) :
    execRdwire k s = .next (s.deliver ⟨.invalidIndex, 0⟩) := by
  simp [execRdwire, indexError, h, raiseError, respond]

theorem execRdwire_valid (s : State) (k : Nat) (h : k < s.slen) (hc : s.slen ≤ s.cfg.cap) :
    execRdwire k s = .next (s.deliver ⟨.ok, zextByte (Memory.read s.scr (s.slen - 1 - k))⟩) := by
  simp only [execRdwire, indexError, if_neg (Nat.not_le.2 h)]
  exact respondByte_below s _ (by omega)

end Sys2Proof.Machine
end

