-- ==== Sys2Proof/Laws/Scaler.lean ====
section
/-! SUPPORT. What the Scaler's functions compute bit by bit, and everything SCALE can do. -/

namespace Sys2Proof.Machine

theorem getLsbD_byteOfBits (p : Nat → Bool) (b : Nat) : (byteOfBits p).getLsbD b = (decide (b < 8) && p b) := by
  change BitVec.getLsbD (w := 1 + 1 + 1 + 1 + 1 + 1 + 1 + 1)
    (BitVec.ofBool (p 7) ++ BitVec.ofBool (p 6) ++ BitVec.ofBool (p 5) ++ BitVec.ofBool (p 4) ++
      BitVec.ofBool (p 3) ++ BitVec.ofBool (p 2) ++ BitVec.ofBool (p 1) ++ BitVec.ofBool (p 0)) b = _
  by_cases hb : b < 8
  · simp only [BitVec.getLsbD_append]
    interval_cases b <;> simp
  · rw [BitVec.getLsbD_of_ge _ _ (by omega)]
    simp [hb]

theorem getLsbD_scaledByte (g : Byte) (f i b : Nat) (hb : b < 8) :
    (scaledByte g f i).getLsbD b = g.getLsbD ((8 * i + b) / f) := by
  rw [scaledByte, getLsbD_byteOfBits, decide_eq_true hb, Bool.true_and, magnifiedPixel]

@[simp] theorem length_scaleColumn (g : Byte) (f : Nat) : (scaleColumn g f).length = f := by simp [scaleColumn]

theorem getElem_scaleColumn (g : Byte) (f i : Nat) (h : i < (scaleColumn g f).length) :
    (scaleColumn g f)[i] = scaledByte g f i := by simp [scaleColumn]

/-- The bytes written one after another are those of a fill. -/
theorem memWriteAll_map (s : State) (v : Nat → Byte) (n : Nat) : ∀ k, k + n ≤ s.cfg.cap →
    memWriteAll (s.setScr (Memory.fill k v)) k ((List.range' k n).map v) = .ok (s.setScr (Memory.fill (k + n) v)) := by
  induction n with
  | zero => intro k _; rfl
  | succ n ih =>
    intro k hk
    have hlt : k < s.cfg.cap := by omega
    simp only [List.range'_succ, List.map_cons, memWriteAll, memWrite, State.setScr_cfg, hlt, if_true]
    have := ih (k + 1) (by omega)
    rw [Memory.fill_succ] at this
    rw [show k + (n + 1) = k + 1 + n by omega]
    exact this

theorem factorError_accepted (c : Config) (f : Nat) : factorError c f = none ↔ 1 ≤ f ∧ f ≤ c.cap := by
  unfold factorError
  by_cases h0 : f = 0
  · simp [h0]
  · by_cases h1 : c.cap < f
    · simp [h0, h1]
    · simp [h0, h1]; omega

/-- The state an accepted SCALE leaves. -/
def scaleResult (g : Byte) (f : Nat) (s : State) : State :=
  ((s.setScr (Memory.fill f (scaledByte g f))).setSlen f).deliver ⟨.ok, zext32 f⟩

theorem execScale_accepted (g : Byte) (f : Nat) (s : State) (h1 : 1 ≤ f) (h2 : f ≤ s.cfg.cap) :
    execScale g f s = .next (scaleResult g f s) := by
  have hw := memWriteAll_map s (scaledByte g f) f 0 (by omega)
  rw [← List.range_eq_range', Nat.zero_add] at hw
  unfold execScale
  rw [(factorError_accepted s.cfg f).2 ⟨h1, h2⟩]
  simp only
  rw [show memWriteAll (clearScratch s) 0 (scaleColumn g f) = _ from hw]
  rfl

/-- Everything SCALE can do: it answers an error and changes nothing, or it is accepted. -/
theorem execScale_cases (g : Byte) (f : Nat) (s : State) :
    (f = 0 ∧ execScale g f s = .next (s.deliver ⟨.invalidFactor, 0⟩)) ∨
    (1 ≤ f ∧ s.cfg.cap < f ∧ execScale g f s = .next (s.deliver ⟨.capacityExceeded, 0⟩)) ∨
    (1 ≤ f ∧ f ≤ s.cfg.cap ∧ execScale g f s = .next (scaleResult g f s)) := by
  by_cases h0 : f = 0
  · exact .inl ⟨h0, by simp [execScale, factorError, h0, raiseError, respond]⟩
  · by_cases h1 : s.cfg.cap < f
    · exact .inr (.inl ⟨by omega, h1, by simp [execScale, factorError, h0, h1, raiseError, respond]⟩)
    · exact .inr (.inr ⟨by omega, by omega, execScale_accepted g f s (by omega) (by omega)⟩)

end Sys2Proof.Machine
end

