-- ==== Sys2Proof/Laws/Translator.lean ====
section
/-! SUPPORT. Everything XLATE can do. -/

namespace Sys2Proof.Machine

theorem CursorRect.inBounds_iff (r : CursorRect) :
    r.inBounds = true ↔ r.rowStart ≤ r.rowEnd ∧ r.rowEnd ≤ 7 ∧ r.columnStart ≤ r.columnEnd ∧ r.columnEnd ≤ 127 := by
  simp [CursorRect.inBounds]

theorem execXlate_accepted (rs re cs ce : Nat) (s : State) (h : CursorRect.inBounds ⟨rs, re, cs, ce⟩ = true) :
    execXlate rs re cs ce s = .next (s.deliver ⟨.ok, packData cs ce (7 - re) (7 - rs)⟩) := by
  simp [execXlate, toNativeWindow, h, respond, NativeWindow.data, nativeWindow, logicalRowToNativePage]

theorem execXlate_refused (rs re cs ce : Nat) (s : State) (h : ¬ CursorRect.inBounds ⟨rs, re, cs, ce⟩ = true) :
    execXlate rs re cs ce s = .next (s.deliver ⟨.outOfBounds, 0⟩) := by
  simp [execXlate, toNativeWindow, h, raiseError, respond]

/-- The bits of a packed `DATA`. -/
theorem getLsbD_packData (a b c d i : Nat) : (packData a b c d).getLsbD i =
    if i < 8 then (BitVec.ofNat 8 d).getLsbD i else if i < 16 then (BitVec.ofNat 8 c).getLsbD (i - 8)
    else if i < 24 then (BitVec.ofNat 8 b).getLsbD (i - 16) else (BitVec.ofNat 8 a).getLsbD (i - 24) := by
  change BitVec.getLsbD (w := 8 + 8 + 8 + 8)
    (BitVec.ofNat 8 a ++ BitVec.ofNat 8 b ++ BitVec.ofNat 8 c ++ BitVec.ofNat 8 d) i = _
  simp only [BitVec.getLsbD_append, Nat.sub_sub]
  split_ifs <;> first | rfl | omega

/-- The four bytes of a packed `DATA`. -/
theorem packData_fields (a b c d : Nat) :
    (packData a b c d).extractLsb' 24 8 = BitVec.ofNat 8 a ∧ (packData a b c d).extractLsb' 16 8 = BitVec.ofNat 8 b ∧
    (packData a b c d).extractLsb' 8 8 = BitVec.ofNat 8 c ∧ (packData a b c d).extractLsb' 0 8 = BitVec.ofNat 8 d := by
  refine ⟨?_, ?_, ?_, ?_⟩ <;>
  · apply BitVec.eq_of_getLsbD_eq
    intro i hi
    simp only [BitVec.getLsbD_extractLsb', getLsbD_packData, hi, decide_true, Bool.true_and]
    split_ifs <;> first | omega | (congr 1; omega)

end Sys2Proof.Machine
end

