-- ==== Sys2Proof/Laws/Step.lean ====
section
/-! SUPPORT. Once and for all, what an operation, a request word and a step can do. -/

namespace Sys2Proof.Machine

/-- Where an operation answers a next state, it delivered one response `r` and changed nothing else, or it is an accepted
SCALE. A response that is not OK carries no data. -/
theorem exec_cases (i : Instr) (s t : State) (h : exec i s = .next t) :
    (∃ r : Response, t = s.deliver r ∧ (r.status ≠ .ok → r.data = 0) ∧
      ∀ g f, i = .scale g f → r.status ≠ .ok ∧ ¬ (1 ≤ f ∧ f ≤ s.cfg.cap)) ∨
    (∃ g f, i = .scale g f ∧ 1 ≤ f ∧ f ≤ s.cfg.cap ∧ t = scaleResult g f s) := by
  cases i with
  | scale g f =>
    rcases execScale_cases g f s with ⟨h0, he⟩ | ⟨h0, h1, he⟩ | ⟨h0, h1, he⟩
    · obtain rfl := Host.Outcome.next.inj (h.symm.trans he)
      exact .inl ⟨_, rfl, fun _ => rfl, by rintro g f ⟨⟩; exact ⟨by simp, by omega⟩⟩
    · obtain rfl := Host.Outcome.next.inj (h.symm.trans he)
      exact .inl ⟨_, rfl, fun _ => rfl, by rintro g f ⟨⟩; exact ⟨by simp, by omega⟩⟩
    · exact .inr ⟨g, f, rfl, h0, h1, Host.Outcome.next.inj (h.symm.trans he)⟩
  | xlate rs re cs ce =>
    by_cases hb : CursorRect.inBounds ⟨rs, re, cs, ce⟩ = true
    · obtain rfl := Host.Outcome.next.inj (h.symm.trans (execXlate_accepted rs re cs ce s hb))
      exact .inl ⟨_, rfl, by simp, by rintro g f ⟨⟩⟩
    · obtain rfl := Host.Outcome.next.inj (h.symm.trans (execXlate_refused rs re cs ce s hb))
      exact .inl ⟨_, rfl, by simp, by rintro g f ⟨⟩⟩
  | rdscr a =>
    by_cases ha : s.slen ≤ a
    · obtain rfl := Host.Outcome.next.inj (h.symm.trans (execRdscr_refused s a ha))
      exact .inl ⟨_, rfl, by simp, by rintro g f ⟨⟩⟩
    · have h' : respondByte a s = .next t := by simpa [exec, execRdscr, indexError, ha] using h
      obtain ⟨-, rfl⟩ := respondByte_next s t a h'
      exact .inl ⟨_, rfl, by simp, by rintro g f ⟨⟩⟩
  | rdwire k =>
    by_cases ha : s.slen ≤ k
    · obtain rfl := Host.Outcome.next.inj (h.symm.trans (execRdwire_refused s k ha))
      exact .inl ⟨_, rfl, by simp, by rintro g f ⟨⟩⟩
    · have h' : respondByte (s.slen - 1 - k) s = .next t := by simpa [exec, execRdwire, indexError, ha] using h
      obtain ⟨-, rfl⟩ := respondByte_next s t _ h'
      exact .inl ⟨_, rfl, by simp, by rintro g f ⟨⟩⟩
  | rdlen =>
    obtain rfl := Host.Outcome.next.inj h
    exact .inl ⟨_, rfl, by simp, by rintro g f ⟨⟩⟩
  | rdcap =>
    obtain rfl := Host.Outcome.next.inj h
    exact .inl ⟨_, rfl, by simp, by rintro g f ⟨⟩⟩

/-- The same of a request word: an illegal word is answered and changes nothing. -/
theorem runWord_cases (w : Word40) (s t : State) (h : runWord w s = .next t) :
    (∃ r : Response, t = s.deliver r ∧ (r.status ≠ .ok → r.data = 0) ∧
      ∀ g f, decode w = .ok (.scale g f) → r.status ≠ .ok ∧ ¬ (1 ≤ f ∧ f ≤ s.cfg.cap)) ∨
    (∃ g f, decode w = .ok (.scale g f) ∧ 1 ≤ f ∧ f ≤ s.cfg.cap ∧ t = scaleResult g f s) := by
  unfold runWord at h
  split at h
  · rename_i i hd
    rcases exec_cases i s t h with ⟨r, ht, hr, hs⟩ | ⟨g, f, hi, h1, h2, ht⟩
    · exact .inl ⟨r, ht, hr, fun g f hg => hs g f (by rw [hd] at hg; exact Except.ok.inj hg)⟩
    · exact .inr ⟨g, f, by rw [hd, hi], h1, h2, ht⟩
  · rename_i e hd
    obtain rfl := Host.Outcome.next.inj h
    exact .inl ⟨_, rfl, fun _ => rfl, by intro g f hg; rw [hd] at hg; cases hg⟩

/-- A request word runs the operation it selects. -/
theorem runWord_of_selects (op : Op) (w : Word40) (s : State) (h : op.selects w = true) :
    runWord w s = exec (op.operands w) s := by simp [runWord, decode_of_selects op w h]

/-- A request word that selects no operation is answered `IllegalOperation`. -/
theorem runWord_of_not_selects (w : Word40) (s : State) (h : ∀ op : Op, op.selects w = false) :
    runWord w s = .next (s.deliver ⟨.illegalOperation, 0⟩) := by
  simp [runWord, decode_of_not_selects w h, illegalWord, raiseError, respond]

theorem step_idle (s : State) (h : s.inputs = []) : step s = .next s := by simp [step, nextArrival, h]

theorem step_request (s : State) (w : Word40) (es : List Event) (h : s.inputs = .request w :: es) :
    step s = runWord w (s.setInputs es) := by simp [step, nextArrival, h]

theorem step_reset (s : State) (es : List Event) (h : s.inputs = .reset :: es) :
    step s = .next (applyReset (s.setInputs es)) := by simp [step, nextArrival, h]

/-- Everything a step that answers a next state can have been. -/
theorem step_cases (s t : State) (h : step s = .next t) :
    (s.inputs = [] ∧ t = s) ∨
    (∃ w es, s.inputs = .request w :: es ∧ runWord w (s.setInputs es) = .next t) ∨
    (∃ es, s.inputs = .reset :: es ∧ t = applyReset (s.setInputs es)) := by
  match hi : s.inputs with
  | [] =>
    rw [step_idle s hi] at h
    exact .inl ⟨rfl, (Host.Outcome.next.inj h).symm⟩
  | .request w :: es =>
    rw [step_request s w es hi] at h
    exact .inr (.inl ⟨w, es, rfl, h⟩)
  | .reset :: es =>
    rw [step_reset s es hi] at h
    exact .inr (.inr ⟨es, rfl, (Host.Outcome.next.inj h).symm⟩)

end Sys2Proof.Machine
end

