-- ==== Sys2Proof/Laws/Run.lean ====
section
/-! SUPPORT. Runs of a sequence, one input at a time: what is still to come has no influence on an input's effect. -/

namespace Sys2Proof.Machine

/-- The effect of one input, taken from the list. -/
def applyEvent (e : Event) (s : State) : Host.Outcome State Fault Refusal :=
  match e with
  | .request w => runWord w s
  | .reset => .next (applyReset s)

theorem respondByte_setInputs (a : Nat) (s t : State) (es : List Event) (h : respondByte a s = .next t) :
    respondByte a (s.setInputs es) = .next (t.setInputs es) := by
  obtain ⟨ha, rfl⟩ := respondByte_next s t a h
  exact respondByte_below (s.setInputs es) a ha

/-- An operation neither reads nor writes the inputs still to come. -/
theorem exec_setInputs (i : Instr) (s t : State) (es : List Event) (h : exec i s = .next t) :
    exec i (s.setInputs es) = .next (t.setInputs es) := by
  cases i with
  | scale g f =>
    rcases execScale_cases g f s with ⟨h0, he⟩ | ⟨h0, h1, he⟩ | ⟨h0, h1, he⟩ <;>
      obtain rfl := Host.Outcome.next.inj (h.symm.trans he)
    · rcases execScale_cases g f (s.setInputs es) with ⟨_, he'⟩ | ⟨h0', _, _⟩ | ⟨h0', _, _⟩
      · exact he'
      · omega
      · omega
    · rcases execScale_cases g f (s.setInputs es) with ⟨h0', _⟩ | ⟨_, _, he'⟩ | ⟨_, h1', _⟩
      · omega
      · exact he'
      · exact absurd h1' (Nat.not_le.2 h1)
    · exact execScale_accepted g f (s.setInputs es) h0 h1
  | xlate rs re cs ce =>
    by_cases hb : CursorRect.inBounds ⟨rs, re, cs, ce⟩ = true
    · obtain rfl := Host.Outcome.next.inj (h.symm.trans (execXlate_accepted rs re cs ce s hb))
      exact execXlate_accepted rs re cs ce (s.setInputs es) hb
    · obtain rfl := Host.Outcome.next.inj (h.symm.trans (execXlate_refused rs re cs ce s hb))
      exact execXlate_refused rs re cs ce (s.setInputs es) hb
  | rdscr a =>
    by_cases ha : s.slen ≤ a
    · obtain rfl := Host.Outcome.next.inj (h.symm.trans (execRdscr_refused s a ha))
      exact execRdscr_refused (s.setInputs es) a ha
    · have h' : respondByte a s = .next t := by simpa [exec, execRdscr, indexError, ha] using h
      simpa [exec, execRdscr, indexError, ha] using respondByte_setInputs a s t es h'
  | rdwire k =>
    by_cases ha : s.slen ≤ k
    · obtain rfl := Host.Outcome.next.inj (h.symm.trans (execRdwire_refused s k ha))
      exact execRdwire_refused (s.setInputs es) k ha
    · have h' : respondByte (s.slen - 1 - k) s = .next t := by simpa [exec, execRdwire, indexError, ha] using h
      simpa [exec, execRdwire, indexError, ha] using respondByte_setInputs _ s t es h'
  | rdlen => obtain rfl := Host.Outcome.next.inj h; rfl
  | rdcap => obtain rfl := Host.Outcome.next.inj h; rfl

theorem runWord_setInputs (w : Word40) (s t : State) (es : List Event) (h : runWord w s = .next t) :
    runWord w (s.setInputs es) = .next (t.setInputs es) := by
  unfold runWord at h ⊢
  split at h
  · exact exec_setInputs _ s t es h
  · obtain rfl := Host.Outcome.next.inj h; rfl

theorem runEvents_nil (s : State) : runEvents [] s = .next (s.setInputs []) := rfl

/-- A run of at least one step goes on from the state its first step left. -/
theorem run_succ (M : Host.Core) (k : Nat) (s t : M.State) (h : M.step s = .next t) : M.run (k + 1) s = M.run k t := by
  simp [Host.Core.run, h]

/-- A run takes its first input, and goes on from the state that input left. -/
theorem runEvents_cons (e : Event) (es : List Event) (s t : State) (h : applyEvent e s = .next t) :
    runEvents (e :: es) s = runEvents es t := by
  have hstep : step (s.setInputs (e :: es)) = .next (t.setInputs es) := by
    cases e with
    | request w =>
      rw [step_request _ w es rfl]
      exact runWord_setInputs w s t es h
    | reset =>
      obtain rfl := Host.Outcome.next.inj h
      exact step_reset _ es rfl
  exact run_succ Sys2Proof.core es.length _ _ hstep

/-! ### The inputs of a run and its observation (R120) -/

@[simp] theorem runInputs_nil : runInputs [] = [] := rfl

@[simp] theorem runInputs_request (w : Word40) (es : List Event) :
    runInputs (.request w :: es) = .request w :: runInputs es := rfl

/-- A sequence that ends with a request is a run as it stands. -/
theorem runInputs_concat_request (es : List Event) (w : Word40) :
    runInputs (es ++ [.request w]) = es ++ [.request w] := by
  induction es with
  | nil => rfl
  | cons e es ih =>
    cases e with
    | request v => simp [ih]
    | reset => cases es <;> simp_all [runInputs]

/-- A reset after the last request is no part of the run. -/
theorem runInputs_concat_reset (es : List Event) : runInputs (es ++ [.reset]) = runInputs es := by
  induction es with
  | nil => rfl
  | cons e es ih =>
    cases e with
    | request v => simp [ih]
    | reset => simp only [List.cons_append, runInputs, ih]

@[simp] theorem State.observe_responses (past : Nat) (s : State) :
    (s.observe past).responses = s.responses.drop past := rfl
@[simp] theorem State.observe_scr (past : Nat) (s : State) : (s.observe past).scr = s.scrBytes := rfl
@[simp] theorem State.observe_slen (past : Nat) (s : State) : (s.observe past).slen = s.slen := rfl

/-- What a completed run observes is read off the state it ends in. -/
theorem observeRun_next (es : List Event) (s t : State) (h : runEvents (runInputs es) s = .next t) :
    observeRun es s = .next (t.observe s.responses.length) := by
  simp [observeRun, h]

end Sys2Proof.Machine
end

