-- ==== Sys2Proof/Tests/Slice0.lean ====
section
/-! SUPPORT. Tests of the model: expected results are spec/95_test_vectors.md's or worked out by hand from the rules named.
Then, for every statement with hypotheses, a concrete input that meets them, clause by clause. -/

namespace Sys2Proof.Machine.Tests

/-! ### States -/

/-- A block of capacity `cap` right after reset, with one word presented. -/
def presented (cap : Nat) (w : Word40) : State := presentNext w (State.resetWith ⟨cap⟩)

/-- The start state of 95 section 2.4: after `scale 0xA5, 3` with `CAP = 4`. -/
def loaded : State :=
  { State.reset with scr := [(0, 0xC7), (1, 0x81), (2, 0xE3)], slen := 3 }

/-- `loaded` with inputs presented. -/
def loadedWith (es : List Event) : State := loaded.setInputs es

/-- The answer of one step: status, data, `SLEN` and the scratch bytes; none where it stops. -/
def answer (s : State) : Option (Status × Nat × Nat × List Byte) :=
  match step s with
  | .next t =>
    match t.responses.getLast? with
    | some r => some (r.status, r.data.toNat, t.slen, t.scrBytes)
    | none => none
  | .fault _ => none
  | .refused _ => none

/-! ### Well-formedness: a term that fails each check (30_encoding.md R44, D2) -/

theorem test_wf_scale_factor : (Instr.scale 0x3C 256).wf = false := by decide
theorem test_wf_xlate_rowStart : (Instr.xlate 256 0 0 0).wf = false := by decide
theorem test_wf_xlate_rowEnd : (Instr.xlate 0 256 0 0).wf = false := by decide
theorem test_wf_xlate_columnStart : (Instr.xlate 0 0 256 0).wf = false := by decide
theorem test_wf_xlate_columnEnd : (Instr.xlate 0 0 0 256).wf = false := by decide
theorem test_wf_rdscr : (Instr.rdscr 256).wf = false := by decide
theorem test_wf_rdwire : (Instr.rdwire 256).wf = false := by decide
theorem test_wf_largest : (Instr.xlate 255 255 255 255).wf = true := by decide

/-! ### Decoding: words written out field by field from R42, R43, R47 -/

theorem test_decode_scale : decode 0b00000001_10100101_00000011_00000000_00000000 = .ok (.scale 0xA5 3) := by decide
theorem test_decode_xlate : decode 0b00000010_00000010_00000100_00001010_00001011 = .ok (.xlate 2 4 10 11) := by decide
theorem test_decode_rdscr : decode 0b00000011_00000001_00000000_00000000_00000000 = .ok (.rdscr 1) := by decide
theorem test_decode_rdwire : decode 0b00000100_10000000_00000000_00000000_00000000 = .ok (.rdwire 128) := by decide
theorem test_decode_rdlen : decode 0b00000101_00000000_00000000_00000000_00000000 = .ok .rdlen := by decide
theorem test_decode_rdcap : decode 0b00000110_00000000_00000000_00000000_00000000 = .ok .rdcap := by decide
theorem test_decode_idle_bus : decode 0x0000000000 = .error (.unassignedOpcode 0x00) := by decide
theorem test_decode_reserved : decode 0x0300010000 = .error (.reservedField .rdscr) := by decide
theorem test_decode_short_link : decodeLink [0x05, 0, 0, 0] = .error (.truncated 4) := by decide
theorem test_encode_scale : encode (.scale 0x3C 2) = 0x013C020000 := by decide
theorem test_encode_xlate : encode (.xlate 1 6 64 71) = 0x0201064047 := by decide
theorem test_table_word : decodeTableWord 40 0x0303000000 = some (.rdscr 3) := by decide

/-! ### One step each (95 sections 2.1 to 2.5) -/

theorem test_scale_straddles_bytes :
    answer (presented 4 0x01A5030000) = some (.ok, 3, 3, [0xC7, 0x81, 0xE3, 0x00]) := by decide
theorem test_scale_full_capacity :
    answer (presented 8 0x01A5080000) = some (.ok, 8, 8, [0xFF, 0x00, 0xFF, 0x00, 0x00, 0xFF, 0x00, 0xFF]) := by decide
theorem test_scale_clears : answer (loadedWith [.request 0x01FF010000]) =
    some (.ok, 1, 1, [0xFF, 0x00, 0x00, 0x00]) := by decide
theorem test_scale_over_capacity : answer (loadedWith [.request 0x0181050000]) =
    some (.capacityExceeded, 0, 3, [0xC7, 0x81, 0xE3, 0x00]) := by decide
theorem test_xlate_whole_screen : (answer (presented 4 0x020007007F)).map (fun a => (a.1, a.2.1)) =
    some (.ok, 0x007F0007) := by decide
theorem test_xlate_reversed : (answer (presented 4 0x0207060000)).map (fun a => (a.1, a.2.1)) =
    some (.outOfBounds, 0) := by decide
theorem test_rdscr_last : (answer (loadedWith [.request 0x0302000000])).map (fun a => (a.1, a.2.1)) =
    some (.ok, 0xE3) := by decide
theorem test_rdscr_at_slen : (answer (loadedWith [.request 0x0303000000])).map (fun a => (a.1, a.2.1)) =
    some (.invalidIndex, 0) := by decide
theorem test_rdwire_first : (answer (loadedWith [.request 0x0400000000])).map (fun a => (a.1, a.2.1)) =
    some (.ok, 0xE3) := by decide
theorem test_rdwire_last : (answer (loadedWith [.request 0x0402000000])).map (fun a => (a.1, a.2.1)) =
    some (.ok, 0xC7) := by decide
theorem test_rdlen : (answer (loadedWith [.request 0x0500000000])).map (fun a => (a.1, a.2.1)) = some (.ok, 3) := by
  decide
theorem test_rdcap_reference : (answer (presented 2 0x0600000000)).map (fun a => (a.1, a.2.1)) = some (.ok, 2) := by
  decide
theorem test_illegal : (answer (loadedWith [.request 0x0181020100])).map (fun a => (a.1, a.2.1)) =
    some (.illegalOperation, 0) := by decide
theorem test_response_word : Response.word ⟨.capacityExceeded, 0⟩ = 0x0100000000 := by decide
theorem test_withFetchWord : (answer (State.reset.withFetchWord 40 0x0600000000)).map (fun a => (a.1, a.2.1)) =
    some (.ok, 4) := by decide

/-- 95 P2 step 1 as a run from a state with a past response: it is not the run's own, and a trailing reset is no part. -/
theorem test_observe_run : observeRun [.request 0x0181050000, .reset] (loaded.deliver ⟨.ok, 3⟩) =
    .next ⟨[⟨.capacityExceeded, 0⟩], [0xC7, 0x81, 0xE3, 0x00], 3⟩ := rfl

/-! ### The host's tools (30_encoding.md R53 to R55, 44_glyph_composition.md, 95 section 2.6) -/

theorem test_assemble_comment : assembleLine [' ', 'S', 'c', 'a', 'l', 'e', ' ', '0', 'x', '3', 'c', ',', '0', 'b', '1', '0',
    ' ', ';', 'x'] = .ok [0x013C020000] := by decide
theorem test_assemble_range : assembleLine ['r', 'd', 's', 'c', 'r', ' ', '2', '5', '6'] = .error .outOfRange := by decide
theorem test_disassemble : disassemble 0x0203040A0B =
    ⟨['x', 'l', 'a', 't', 'e', ' ', '3', ',', ' ', '4', ',', ' ', '1', '0', ',', ' ', '1', '1'], false⟩ := by decide
theorem test_glyphcol : Stmt.words (.glyphcol 0x11 2 3 0 1) =
    .ok [0x0111020000, 0x0203040203, 0x0400000000, 0x0401000000] := by decide
theorem test_compose_step : (composeStep .once 0x7E 2 3 0 0 State.reset).map (fun p => p.1) =
    some [.setColumnRange 0 1, .setPageRange 3 4, .data 0x3F, .data 0xFC] := by decide
/-- R90: with `HREPEAT = f` the bytes fill the window of two columns by two pages. -/
theorem test_compose_per_column : (composeStep .perColumn 0x7E 2 3 0 0 State.reset).map (fun p => placed p.1) =
    some [⟨0, 3, 0x3F⟩, ⟨0, 4, 0xFC⟩, ⟨1, 3, 0x3F⟩, ⟨1, 4, 0xFC⟩] := by decide

/-! ### Witnesses: inputs that meet the hypotheses of each statement -/

theorem loaded_inv : loaded.Inv :=
  ⟨by decide, by decide, by decide, by decide, fun _ => ⟨0xA5, by decide⟩⟩

theorem reset_inv : State.reset.Inv :=
  ⟨by decide, by decide, by decide, by decide, fun h => absurd h (by decide)⟩

theorem loadedWith_inv (es : List Event) : (loadedWith es).Inv := loaded_inv

theorem witness_DecodeOfEncodeIsTheInstruction :
    (Instr.scale 0xFF 255).wf = true ∧ (Instr.xlate 255 255 255 255).wf = true ∧ (Instr.rdscr 255).wf = true ∧
    (Instr.rdwire 255).wf = true ∧ Instr.rdlen.wf = true ∧ Instr.rdcap.wf = true := by decide

theorem witness_LegalWordIsTheEncodingOfItsInstruction : decode 0x03FF000000 = .ok (.rdscr 255) := by decide

theorem witness_RowsSelectByMaskAndMatch :
    (0x0181020000#40 &&& Op.scale.maskBits = Op.scale.matchBits) ∧
    (loadedWith [.request 0x0181020100]).inputs = .request 0x0181020100 :: [] ∧
    fieldOpc 0x0181020100 = Op.scale.opcode ∧
    Op.all.all (fun op => decide (0x0181020100#40 &&& op.maskBits ≠ op.matchBits)) = true := by decide

theorem witness_IllegalWordsAnswerIllegalOperation :
    (presented 4 0x0000000000).inputs = [.request 0x0000000000] ∧
    fieldOpc 0x0000000000 = 0x00 ∧ 0x07 ≤ (fieldOpc 0x0700000000).toNat ∧ 0x07 ≤ (fieldOpc 0xFFFFFFFFFF).toNat ∧
    (fieldOpc 0x0101010100 = 0x01 ∧ fieldC 0x0101010100 ≠ 0) ∧ (fieldOpc 0x0101010001 = 0x01 ∧ fieldD 0x0101010001 ≠ 0) ∧
    (fieldOpc 0x0300010000 = 0x03 ∧ fieldB 0x0300010000 ≠ 0) ∧ (fieldOpc 0x0400000100 = 0x04 ∧ fieldC 0x0400000100 ≠ 0) ∧
    (fieldOpc 0x0501000000 = 0x05 ∧ fieldA 0x0501000000 ≠ 0) ∧ (fieldOpc 0x0600010000 = 0x06 ∧ fieldB 0x0600010000 ≠ 0) := by
  decide

theorem witness_ResponseWordReadsBack : Response.ofWord 0x0500000000 = some ⟨.illegalOperation, 0⟩ ∧
    Response.ofWord 0x0600000000 = none := by decide

theorem witness_EveryRequestGetsExactlyOneResponse :
    (loadedWith [.request 0x0302000000]).Inv ∧
    (loadedWith [.request 0x0302000000]).inputs = .request 0x0302000000 :: [] := ⟨loaded_inv, rfl⟩

/-- Each cause occurs: the words of 95 sections 2.2 to 2.5 on `loaded`, at the boundary of each cause. -/
theorem witness_EachStatusHasExactlyItsCause :
    (loadedWith [.request 0x0181050000]).Inv ∧
    decode 0x0181050000 = .ok (.scale 0x81 5) ∧ loaded.cfg.cap < 5 ∧
    decode 0x0200080000 = .ok (.xlate 0 8 0 0) ∧ decode 0x0181000000 = .ok (.scale 0x81 0) ∧
    decode 0x0303000000 = .ok (.rdscr 3) ∧ decode 0x0403000000 = .ok (.rdwire 3) ∧ loaded.slen ≤ 3 ∧
    decode 0x0501000000 = .error (.reservedField .rdlen) := ⟨loaded_inv, by decide⟩

theorem witness_OkDataIsTheOperationsResult :
    (loadedWith [.request 0x0181040000]).Inv ∧
    (answer (loadedWith [.request 0x0181040000])).map (fun a => a.1) = some .ok ∧
    (answer (loadedWith [.request 0x020007007F])).map (fun a => a.1) = some .ok ∧
    (answer (loadedWith [.request 0x0302000000])).map (fun a => a.1) = some .ok ∧
    (answer (loadedWith [.request 0x0402000000])).map (fun a => a.1) = some .ok ∧
    (answer (loadedWith [.request 0x0500000000])).map (fun a => a.1) = some .ok ∧
    (answer (loadedWith [.request 0x0600000000])).map (fun a => a.1) = some .ok := ⟨loaded_inv, by decide⟩

/-- The clauses: a reserved field set; `f = 0`; `f = CAP + 1`; `f = 1` and `f = CAP`, from a state with the invariant. -/
theorem witness_ScaleChecksClearsAndWritesTheColumn :
    ((0x01 : Byte) ≠ 0) ∧ ((0x00 : Byte) = 0) ∧ loaded.cfg.cap < (0x05 : Byte).toNat ∧
    ((0x01 : Byte) ≠ 0 ∧ (0x01 : Byte).toNat ≤ loaded.cfg.cap) ∧
    ((0x04 : Byte) ≠ 0 ∧ (0x04 : Byte).toNat ≤ loaded.cfg.cap) ∧ loaded.Inv :=
  ⟨by decide, by decide, by decide, by decide, by decide, loaded_inv⟩

/-- The value `V` of E14 of 95: `g = 0x3C`, `f = 2`. -/
theorem witness_ScaleIsThePixelMap :
    1 ≤ 2 ∧ ∀ y, y < 8 * 2 → (0x0FF0#(8 * 2)).getLsbD y = (0x3C : Byte).getLsbD (y / 2) := by decide

theorem witness_ScratchHoldsTheColumnLittleEndian :
    1 ≤ 2 ∧ 2 ≤ loaded.cfg.cap ∧ ∀ y, y < 8 * 2 → (0x0FF0#(8 * 2)).getLsbD y = (0x3C : Byte).getLsbD (y / 2) := by
  decide

theorem witness_ScalingMultipliesTheBitCount : 1 ≤ 3 ∧ popcountAll (scaleColumn 0xA5 3) = 12 := by decide

theorem witness_FactorOneIsIdentity : 1 ≤ (State.resetWith ⟨1⟩).cfg.cap := by decide

theorem witness_ZeroAndFullColumnsStayUniform : 1 ≤ 2 ∧ scaleColumn 0xFF 2 = [0xFF, 0xFF] := by decide

/-- `f = 3`: pixel 7 is the run 21..23; pixels 5 and 6 of the magnified column straddle no source pixel boundary. -/
theorem witness_SourcePixelsBecomeRunsInOrder :
    1 ≤ 3 ∧ (5 < 6 ∧ 6 < 8 * 3) ∧ 7 < 8 ∧ (7 * 3 ≤ 23 ∧ 23 ≤ 7 * 3 + 3 - 1) := by decide

theorem witness_SequentialWalkComputesTheSameBytes : 1 ≤ 2 ∧ walkColumn 0x3C 2 = [0xF0, 0x0F] := by decide +kernel

theorem witness_ScaleIgnoresTheOldScratch : loaded.cfg = State.reset.cfg ∧ loaded.scr ≠ State.reset.scr := by decide

/-- Both clauses, at the ends of each range (R70's corner cases). -/
theorem witness_XlateTranslatesOrRefuses :
    ((0x00 : Byte).toNat ≤ (0x07 : Byte).toNat ∧ (0x07 : Byte).toNat ≤ 7 ∧ (0x00 : Byte).toNat ≤ (0x7F : Byte).toNat ∧
      (0x7F : Byte).toNat ≤ 127) ∧
    ¬ ((0x00 : Byte).toNat ≤ (0x08 : Byte).toNat ∧ (0x08 : Byte).toNat ≤ 7 ∧ (0x00 : Byte).toNat ≤ (0x00 : Byte).toNat ∧
      (0x00 : Byte).toNat ≤ 127) ∧
    ¬ ((0x00 : Byte).toNat ≤ (0x00 : Byte).toNat ∧ (0x00 : Byte).toNat ≤ 7 ∧ (0x00 : Byte).toNat ≤ (0x80 : Byte).toNat ∧
      (0x80 : Byte).toNat ≤ 127) := by decide

theorem witness_AcceptedWindowIsInsideTheDisplay : 2 ≤ 4 ∧ 4 ≤ 7 ∧ 10 ≤ 11 ∧ 11 ≤ 127 := by decide

theorem witness_WindowSelectsExactlyTheRectangle : 0 ≤ 7 ∧ 7 ≤ 7 ∧ 0 ≤ 127 ∧ 127 ≤ 127 ∧ (0 ≤ 7 ∧ 7 ≤ 7) := by decide

theorem witness_RowTransformMirrorsAndIsItsOwnInverse : 7 ≤ 7 ∧ 127 ≤ 127 ∧ 127 ≤ 127 ∧ 0 ≤ 7 := by decide

/-- The clauses: a reserved field set; `i = SLEN`; `i = SLEN - 1` with `SLEN ≤ CAP`. -/
theorem witness_RdscrReadsAValidByte :
    ((0x01 : Byte) ≠ 0) ∧ loaded.slen ≤ (0x03 : Byte).toNat ∧
    (loaded.slen ≤ loaded.cfg.cap ∧ (0x02 : Byte).toNat < loaded.slen) := by decide

theorem witness_RdwireReadsInReverseOrder :
    ((0x01 : Byte) ≠ 0) ∧ loaded.slen ≤ (0x03 : Byte).toNat ∧
    (loaded.slen ≤ loaded.cfg.cap ∧ (0x02 : Byte).toNat < loaded.slen) := by decide

theorem witness_RdlenAnswersTheValidLength : ((0x01 : Byte) ≠ 0) ∧ loaded.Inv := ⟨by decide, loaded_inv⟩

theorem witness_RdcapAnswersTheCapacity : ((0x01 : Byte) ≠ 0) ∧ (State.resetWith ⟨8⟩).cfg.valid := by decide

theorem witness_FullReadoutYieldsTheColumn : loaded.Inv ∧ loaded.slen = 3 ∧ loaded.Holds (some (0xA5, 3)) :=
  ⟨loaded_inv, rfl, rfl, by decide, by decide, by decide⟩

theorem witness_ReadsChangeNothingAndRepeat :
    (∀ g f, Instr.rdwire 2 ≠ .scale g f) ∧
    exec (.rdwire 2) loaded = .next (loaded.deliver ⟨.ok, 0xC7⟩) ∧
    ((loadedWith [.reset]).scr = loaded.scr ∧ (loadedWith [.reset]).slen = loaded.slen ∧
      (loadedWith [.reset]).cfg = loaded.cfg) := ⟨(by intro g f h; cases h), rfl, rfl, rfl, rfl⟩

theorem witness_StepRunsTheDecodedInstruction :
    (loadedWith [.request 0x0402000000, .reset]).inputs = .request 0x0402000000 :: [.reset] ∧
    decode 0x0402000000 = .ok (.rdwire 2) := by decide

theorem witness_ResetMeetsTheInvariant : Config.valid ⟨1⟩ ∧ Config.valid ⟨8⟩ := by decide

theorem witness_StepKeepsTheInvariant : (loadedWith [.request 0x01FF040000]).Inv ∧
    (answer (loadedWith [.request 0x01FF040000])).map (fun a => a.1) = some .ok := ⟨loaded_inv, by decide⟩

theorem witness_EveryRunCompletes : loaded.Inv ∧ State.reset.Inv := ⟨loaded_inv, reset_inv⟩

theorem witness_RunHoldsTheMostRecentSuccessfulScale :
    (loaded.Inv ∧ loaded.Holds (some (0xA5, 3))) ∧ (State.reset.Inv ∧ State.reset.Holds none) :=
  ⟨⟨loaded_inv, rfl, by decide, by decide, by decide⟩, reset_inv, rfl⟩

theorem witness_UnwrittenScratchIsUnobservable : State.reset.slen = 0 := rfl

theorem witness_ResetClearsTheLengthOnly :
    (loadedWith [.reset, .request 0x0500000000]).inputs = .reset :: [.request 0x0500000000] := rfl

/-- A sequence with a refused SCALE, a read and a reset, from reset. -/
theorem witness_NothingIsReadableBeforeTheFirstScale :
    State.reset.Inv ∧ State.reset.slen = 0 ∧
    ∀ w g f, Event.request w ∈ [Event.request 0x0181050000, .request 0x0300000000, .reset] →
      decode w = .ok (.scale g f) → f = 0 ∨ State.reset.cfg.cap < f := by
  refine ⟨reset_inv, rfl, ?_⟩
  intro w g f hw hd
  simp only [List.mem_cons, Event.request.injEq, reduceCtorEq, List.not_mem_nil, or_false] at hw
  rcases hw with rfl | rfl
  · have h : decode 0x0181050000 = .ok (.scale 0x81 5) := by decide
    obtain ⟨-, rfl⟩ := Instr.scale.inj (Except.ok.inj (h.symm.trans hd))
    decide
  · have h : decode 0x0300000000 = .ok (.rdscr 0) := by decide
    cases Except.ok.inj (h.symm.trans hd)

/-- A step that changes `SLEN`: an accepted SCALE, and a reset. -/
theorem witness_OnlyScaleAndResetWriteTheScratch :
    (answer (loadedWith [.request 0x01FF010000])).map (fun a => a.2.2.1) = some 1 ∧ loaded.slen = 3 ∧
    step (loadedWith [.reset]) = .next (applyReset loaded) ∧ (applyReset loaded).slen = 0 := by
  exact ⟨by decide, rfl, rfl, rfl⟩

theorem witness_NoStepChangesTheConfiguration :
    step (loadedWith [.request 0x0600000000]) = .next (loaded.deliver ⟨.ok, 4⟩) := rfl

theorem witness_PastResponsesHaveNoInfluence :
    step (loadedWith [.request 0x0303000000]) = .next (loaded.deliver ⟨.invalidIndex, 0⟩) := rfl

theorem witness_RequestsTakeEffectInOrder : loaded.Inv := loaded_inv

/-- A run with a reset between two requests, from a state with a past response. -/
theorem witness_RunObservesItsOwnResponses :
    (loaded.deliver ⟨.ok, 3⟩).Inv ∧ (loadedWith [.reset]).cfg = loaded.cfg ∧ (loadedWith [.reset]).scr = loaded.scr ∧
    (loadedWith [.reset]).slen = loaded.slen ∧ (loadedWith [.reset]).draws = loaded.draws ∧
    runInputs [.request 0x0181050000, .reset, .request 0x0500000000, .reset] =
      [.request 0x0181050000, .reset] ++ [.request 0x0500000000] := ⟨loaded_inv, rfl, rfl, rfl, rfl, rfl⟩

theorem witness_LaterScaleReplacesRefusedScaleKeeps :
    (1 ≤ 2 ∧ 2 ≤ loaded.cfg.cap) ∧ (1 ≤ 4 ∧ 4 ≤ loaded.cfg.cap ∧ 3 < 4) ∧ (loaded.cfg.cap < 5 ∧ 1 < 2) := by decide

theorem witness_ErrorsChangeNothingAndRepeat :
    runWord 0x0181050000 loaded = .next (loaded.deliver ⟨.capacityExceeded, 0⟩) ∧
    (loaded.deliver ⟨.capacityExceeded, 0⟩).responses = loaded.responses ++ [⟨.capacityExceeded, 0⟩] ∧
    Status.capacityExceeded ≠ .ok := ⟨rfl, rfl, by decide⟩

theorem witness_AssemblingTheDisassemblyGivesTheWord :
    (disassemble 0x0700000000).illegal = true ∧ (disassemble 0x0600000000).illegal = false := by decide

theorem witness_GlyphFitsIffEveryWindowIsAccepted : 1 ≤ 2 ∧ glyphFits 2 6 112 = true ∧ glyphFits 2 7 0 = false := by
  decide

/-- The three causes: `f = 0`; `f = CAP + 1`; a window one row too low. -/
theorem witness_RefusedStepSendsNothing :
    loaded.Inv ∧ (0 < 256 ∧ (glyphXlate 0 3 0 0).wf = true) ∧
    (5 < 256 ∧ (glyphXlate 5 3 0 0).wf = true ∧ loaded.cfg.cap < 5) ∧
    (2 < 256 ∧ (glyphXlate 2 7 0 0).wf = true ∧ ¬ (glyphRect 2 7 0 0).inBounds = true) := ⟨loaded_inv, by decide⟩

/-- The lowest and rightmost position of the largest factor, with the last column of the window for `HREPEAT = f`. -/
theorem witness_ComposedBytesLandOnTheirRows :
    loaded.Inv ∧ 1 ≤ 4 ∧ 4 ≤ loaded.cfg.cap ∧ glyphFits 4 4 96 = true ∧ 7 ≤ 7 ∧ 3 < 4 ∧ 3 < HRepeat.perColumn.count 4 ∧
    0 < HRepeat.once.count 4 ∧
    (⟨127, 0, scaledByte 0x7E 4 3⟩ : Placed) ∈ placed (windowCommands (packData 124 127 0 3) ++
      (HRepeat.perColumn.stream 4 (scaleColumn 0x7E 4).reverse).map .data) := ⟨loaded_inv, by decide⟩

theorem witness_GlyphWindowsAndDataInterleave :
    loaded.Inv ∧ 1 ≤ 2 ∧ 2 ≤ loaded.cfg.cap ∧ glyphFits 2 6 112 = true ∧ [(0x7E : Byte), 1, 2, 3, 4, 5, 6, 0xFF].length ≤ 8 :=
  ⟨loaded_inv, by decide⟩

end Sys2Proof.Machine.Tests
end

