-- ==== Sys2Proof/Proofs/Scope.lean ====
section
/-! The scope (00_scope.md): a step runs the decoded instruction, and every run completes. Every input completes from a
state of the invariant and keeps the invariant; a run is an induction over its inputs. -/

namespace Sys2Proof.Machine

/-! ### A step runs what the word decodes to (R8, R37) -/

/-- A request word that decodes runs what it decodes to. -/
theorem runWord_of_decode (w : Word40) (i : Instr) (s : State) (h : decode w = .ok i) : runWord w s = exec i s := by
  simp [runWord, h]

/-- A request word that does not decode is answered `IllegalOperation` (R49). -/
theorem runWord_of_illegal (w : Word40) (e : Illegal) (s : State) (h : decode w = .error e) :
    runWord w s = .next (s.deliver ⟨.illegalOperation, 0⟩) := by
  simp [runWord, h, illegalWord, raiseError, respond]

/-- Settles O31: the word at the head of the inputs is taken, and runs what it decodes to. -/
theorem stepRunsTheDecodedInstruction : Obligations.StepRunsTheDecodedInstruction := by
  intro s w es i hin hd
  calc step s = runWord w (s.setInputs es) := step_request s w es hin
    _ = exec i (s.setInputs es) := runWord_of_decode w i _ hd

/-! ### Every input completes -/

/-- An operation completes wherever `SLEN ≤ CAP`: an index below `SLEN` names a byte of the scratch space. -/
theorem exec_completes (i : Instr) (s : State) (hlen : s.slen ≤ s.cfg.cap) : ∃ t, exec i s = .next t := by
  cases i with
  | scale g f =>
    obtain ⟨-, h⟩ | ⟨-, -, h⟩ | ⟨-, -, h⟩ := execScale_cases g f s
    · exact ⟨_, h⟩
    · exact ⟨_, h⟩
    · exact ⟨_, h⟩
  | xlate rs re cs ce =>
    by_cases hb : CursorRect.inBounds ⟨rs, re, cs, ce⟩ = true
    · exact ⟨_, execXlate_accepted rs re cs ce s hb⟩
    · exact ⟨_, execXlate_refused rs re cs ce s hb⟩
  | rdscr a =>
    obtain ha | ha := Nat.lt_or_ge a s.slen
    · exact ⟨_, execRdscr_valid s a ha hlen⟩
    · exact ⟨_, execRdscr_refused s a ha⟩
  | rdwire k =>
    obtain hk | hk := Nat.lt_or_ge k s.slen
    · exact ⟨_, execRdwire_valid s k hk hlen⟩
    · exact ⟨_, execRdwire_refused s k hk⟩
  | rdlen => exact ⟨_, rfl⟩
  | rdcap => exact ⟨_, rfl⟩

/-- Any 40 bits complete as a request wherever `SLEN ≤ CAP`: a word that decodes to nothing is answered too (R49). -/
theorem runWord_completes (w : Word40) (s : State) (hlen : s.slen ≤ s.cfg.cap) : ∃ t, runWord w s = .next t := by
  cases hd : decode w with
  | ok i => exact runWord_of_decode w i s hd ▸ exec_completes i s hlen
  | error e => exact ⟨_, runWord_of_illegal w e s hd⟩

theorem applyEvent_completes (e : Event) (s : State) (hlen : s.slen ≤ s.cfg.cap) : ∃ t, applyEvent e s = .next t := by
  cases e with
  | request w => exact runWord_completes w s hlen
  | reset => exact ⟨_, rfl⟩

/-! ### Every input keeps the invariant (R13) -/

theorem State.Inv.valid {s : State} (h : s.Inv) : s.cfg.valid := h.1

theorem State.Inv.slen_le {s : State} (h : s.Inv) : s.slen ≤ s.cfg.cap := h.2.1

/-- The invariant reads neither the inputs nor the responses. -/
theorem State.Inv.setInputs {s : State} (h : s.Inv) (es : List Event) : (s.setInputs es).Inv := h

theorem State.Inv.deliver {s : State} (h : s.Inv) (r : Response) : (s.deliver r).Inv := h

/-- An accepted SCALE leaves its column, with zeros above it. -/
theorem scaleResult_inv (g : Byte) (f : Nat) (s : State) (hc : s.cfg.valid) (hf : f ≤ s.cfg.cap) :
    (scaleResult g f s).Inv :=
  ⟨hc, hf, Memory.wf_fill _ _, Memory.inRange_fill _ _ _ hf, fun _ => ⟨g, fun a _ => Memory.read_fill f _ a⟩⟩

/-- A reset sets `SLEN` to 0, so its free bytes need be no column. -/
theorem applyReset_inv (s : State) (hc : s.cfg.valid) : (applyReset s).Inv :=
  ⟨hc, Nat.zero_le _, Memory.wf_fill _ _, Memory.inRange_fill _ _ _ le_rfl, fun h => absurd h (by simp)⟩

theorem runWord_keeps_inv (w : Word40) (s t : State) (hs : s.Inv) (h : runWord w s = .next t) : t.Inv := by
  obtain ⟨r, rfl, -⟩ | ⟨g, f, -, -, hf, rfl⟩ := runWord_cases w s t h
  · exact hs.deliver r
  · exact scaleResult_inv g f s hs.valid hf

theorem applyEvent_keeps_inv (e : Event) (s t : State) (hs : s.Inv) (h : applyEvent e s = .next t) : t.Inv := by
  cases e with
  | request w => exact runWord_keeps_inv w s t hs h
  | reset =>
    obtain rfl := Host.Outcome.next.inj h
    exact applyReset_inv s hs.valid

/-! ### Runs (R113) -/

/-- A run from a state of the invariant completes, in a state of the invariant. -/
theorem runEvents_completes (es : List Event) (s : State) (hs : s.Inv) : ∃ t, runEvents es s = .next t ∧ t.Inv := by
  induction es generalizing s with
  | nil => exact ⟨_, runEvents_nil s, hs.setInputs []⟩
  | cons e es ih =>
    obtain ⟨u, hu⟩ := applyEvent_completes e s hs.slen_le
    obtain ⟨t, ht, hinv⟩ := ih u (applyEvent_keeps_inv e s u hs hu)
    exact ⟨t, (runEvents_cons e es s u hu).trans ht, hinv⟩

/-- Settles O34, by the induction over the inputs that carries the invariant. -/
theorem everyRunCompletes : Obligations.EveryRunCompletes := by
  intro s es hs
  obtain ⟨t, ht, -⟩ := runEvents_completes es s hs
  exact ⟨t, ht⟩

end Sys2Proof.Machine
end

/-! The state (10_state.md): the invariant of R13, what a run leaves in `SCR` and `SLEN`, and what a request reads and
writes. Every request word has one of two effects (`Effect`), and which one depends on `CAP`, `SLEN` and the valid bytes
alone; what a run holds is followed input by input along `track`. -/

namespace Sys2Proof.Machine

/-! ### The invariant (R13, R21) -/

theorem resetWith_inv (c : Config) (hc : c.valid) : (State.resetWith c).Inv :=
  ⟨hc, Nat.zero_le _, rfl, rfl, fun h => absurd h (by simp)⟩

/-- Settles O32: after reset `SLEN` is 0 and nothing is listed. -/
theorem resetMeetsTheInvariant : Obligations.ResetMeetsTheInvariant :=
  ⟨resetWith_inv Config.standard (by decide), rfl, resetWith_inv⟩

/-- Settles O33: waiting, a request and a reset each keep the invariant. -/
theorem stepKeepsTheInvariant : Obligations.StepKeepsTheInvariant := by
  intro s t hs h
  obtain ⟨-, rfl⟩ | ⟨w, es, -, hw⟩ | ⟨es, -, rfl⟩ := step_cases s t h
  · exact hs
  · exact runWord_keeps_inv w (s.setInputs es) t (hs.setInputs es) hw
  · exact applyReset_inv _ hs.valid

/-! ### The configuration (R22) -/

theorem runWord_keeps_cfg (w : Word40) (s t : State) (h : runWord w s = .next t) : t.cfg = s.cfg := by
  obtain ⟨r, rfl, -⟩ | ⟨g, f, -, -, -, rfl⟩ := runWord_cases w s t h
  · rfl
  · rfl

theorem applyEvent_keeps_cfg (e : Event) (s t : State) (h : applyEvent e s = .next t) : t.cfg = s.cfg := by
  cases e with
  | request w => exact runWord_keeps_cfg w s t h
  | reset =>
    obtain rfl := Host.Outcome.next.inj h
    rfl

/-- Settles O40: neither effect of a request, nor a reset, touches `CAP`. -/
theorem noStepChangesTheConfiguration : Obligations.NoStepChangesTheConfiguration := by
  intro s t h
  obtain ⟨-, rfl⟩ | ⟨w, es, -, hw⟩ | ⟨es, -, rfl⟩ := step_cases s t h
  · rfl
  · exact runWord_keeps_cfg w (s.setInputs es) t hw
  · rfl

/-! ### The most recent successful SCALE (R11, R12, R13) -/

/-- `Holds` reads neither the inputs nor the responses. -/
theorem State.Holds.setInputs {s : State} {h : Option (Byte × Nat)} (hs : s.Holds h) (es : List Event) :
    (s.setInputs es).Holds h := hs

theorem State.Holds.deliver {s : State} {h : Option (Byte × Nat)} (hs : s.Holds h) (r : Response) :
    (s.deliver r).Holds h := hs

theorem scaleResult_holds (g : Byte) (f : Nat) (s : State) (h1 : 1 ≤ f) (h2 : f ≤ s.cfg.cap) :
    (scaleResult g f s).Holds (some (g, f)) :=
  ⟨rfl, h1, h2, fun a _ => Memory.read_fill f (scaledByte g f) a⟩

theorem track_accepted (c : Config) (h : Option (Byte × Nat)) (w : Word40) (g : Byte) (f : Nat)
    (hd : decode w = .ok (.scale g f)) (hf : 1 ≤ f ∧ f ≤ c.cap) : track c h (.request w) = some (g, f) := by
  simp [track, hd, hf]

theorem track_not_accepted (c : Config) (h : Option (Byte × Nat)) (w : Word40)
    (hw : ∀ g f, decode w = .ok (.scale g f) → ¬ (1 ≤ f ∧ f ≤ c.cap)) : track c h (.request w) = h := by
  simp only [track]
  split
  · rename_i g f hd
    exact if_neg (hw g f hd)
  · rfl

theorem applyEvent_keeps_holds (e : Event) (s t : State) (h : Option (Byte × Nat)) (hs : s.Holds h)
    (he : applyEvent e s = .next t) : t.Holds (track s.cfg h e) := by
  cases e with
  | request w =>
    obtain ⟨r, rfl, -, hr⟩ | ⟨g, f, hd, h1, h2, rfl⟩ := runWord_cases w s t he
    · rw [track_not_accepted s.cfg h w (fun g f hd => (hr g f hd).2)]
      exact hs.deliver r
    · rw [track_accepted s.cfg h w g f hd ⟨h1, h2⟩]
      exact scaleResult_holds g f s h1 h2
  | reset =>
    obtain rfl := Host.Outcome.next.inj he
    exact applyReset_slen s

/-- Settles O35, by induction over the inputs: each keeps the invariant and moves what is held along `track`. -/
theorem runHoldsTheMostRecentSuccessfulScale : Obligations.RunHoldsTheMostRecentSuccessfulScale := by
  intro s h es hs hh
  induction es generalizing s h with
  | nil => exact ⟨_, runEvents_nil s, hs.setInputs [], hh.setInputs []⟩
  | cons e es ih =>
    obtain ⟨u, hu⟩ := applyEvent_completes e s hs.slen_le
    obtain ⟨t, ht, hinv, hholds⟩ :=
      ih u (track s.cfg h e) (applyEvent_keeps_inv e s u hs hu) (applyEvent_keeps_holds e s u h hh hu)
    rw [applyEvent_keeps_cfg e s u hu] at hholds
    exact ⟨t, (runEvents_cons e es s u hu).trans ht, hinv, hholds⟩

/-! ### Reading what is held, and refusing a factor (R20, R61) -/

/-- RDSCR below the factor answers the byte of the column that is held. -/
theorem execRdscr_of_holds (s : State) (g : Byte) (f i : Nat) (hs : s.Holds (some (g, f))) (hi : i < f) :
    execRdscr i s = .next (s.deliver ⟨.ok, zextByte (scaledByte g f i)⟩) := by
  obtain ⟨hlen, -, hcap, hbytes⟩ := hs
  rw [execRdscr_valid s i (by omega) (by omega), hbytes i (by omega), columnByte, if_pos hi]

theorem execScale_refused (g : Byte) (f : Nat) (s : State) (e : Status) (h : factorError s.cfg f = some e) :
    execScale g f s = .next (s.deliver ⟨e, 0⟩) := by
  simp [execScale, h, raiseError, respond]

/-- Settles O43: the state after the second SCALE holds the column of the one that was accepted last. -/
theorem laterScaleReplacesRefusedScaleKeeps : Obligations.LaterScaleReplacesRefusedScaleKeeps := by
  intro s g g' f f' i h1 h2
  have ht := scaleResult_holds g f s h1 h2
  refine ⟨scaleResult g f s, ?_⟩
  cases hf' : factorError s.cfg f' with
  | none =>
    obtain ⟨h1', h2'⟩ := (factorError_accepted s.cfg f').1 hf'
    have hu := scaleResult_holds g' f' (scaleResult g f s) h1' h2'
    exact ⟨_, execScale_accepted g f s h1 h2, execScale_accepted g' f' (scaleResult g f s) h1' h2',
      fun _ _ hi => execRdscr_of_holds _ g' f' i hu hi, fun hbad _ => by omega⟩
  | some e =>
    have hbad : ¬ (1 ≤ f' ∧ f' ≤ s.cfg.cap) := fun hok => by simp [(factorError_accepted s.cfg f').2 hok] at hf'
    exact ⟨_, execScale_accepted g f s h1 h2, execScale_refused g' f' (scaleResult g f s) e hf',
      fun h1' h2' _ => absurd ⟨h1', h2'⟩ hbad, fun _ hi => execRdscr_of_holds _ g f i (ht.deliver _) hi⟩

/-! ### What a request writes (R11, R12) and what a reset does (R110) -/

/-- Settles O39: in the other cases of a step, `SCR` and `SLEN` are as they were. -/
theorem onlyScaleAndResetWriteTheScratch : Obligations.OnlyScaleAndResetWriteTheScratch := by
  intro s t h hdiff
  obtain ⟨-, rfl⟩ | ⟨w, es, hin, hw⟩ | ⟨es, hin, rfl⟩ := step_cases s t h
  · simp at hdiff
  · obtain ⟨r, rfl, -⟩ | ⟨g, f, hd, h1, h2, rfl⟩ := runWord_cases w (s.setInputs es) t hw
    · simp at hdiff
    · exact .inr ⟨w, es, g, f, hin, hd, h1, h2, rfl⟩
  · exact .inl ⟨es, hin, rfl⟩

/-- Settles O37: the step is `applyReset`, whose bytes are a fill with the free values of this draw. -/
theorem resetClearsTheLengthOnly : Obligations.ResetClearsTheLengthOnly := by
  intro s es hin
  refine ⟨_, step_reset s es hin, rfl, rfl, rfl, rfl, fun a ha => ?_, rfl⟩
  calc Memory.read (Memory.fill s.cfg.cap (Config.scrAfterReset s.draws)) a
      = if a < s.cfg.cap then Config.scrAfterReset s.draws a else 0 := Memory.read_fill _ _ a
    _ = Config.scrAfterReset s.draws a := if_pos ha

/-! ### What a request reads (R13, R16) -/

/-- The two effects of a completed request: a response and nothing else, or the column of an accepted SCALE. -/
inductive Effect where
  | answer (r : Response)
  | column (g : Byte) (f : Nat)

/-- The state an effect leaves. -/
def Effect.on : Effect → State → State
  | .answer r, s => s.deliver r
  | .column g f, s => scaleResult g f s

/-- The response an effect delivers. -/
def Effect.response : Effect → Response
  | .answer r => r
  | .column _ f => ⟨.ok, zext32 f⟩

theorem Effect.on_responses (e : Effect) (s : State) : (e.on s).responses = s.responses ++ [e.response] := by
  cases e with
  | answer r => rfl
  | column g f => rfl

/-- `u` is `s` in all that a request can read: `CAP`, `SLEN`, and the valid bytes `SCR[0] .. SCR[SLEN-1]`. -/
structure State.SameVisible (s u : State) : Prop where
  cfg : u.cfg = s.cfg
  slen : u.slen = s.slen
  bytes : ∀ a, a < s.slen → Memory.read u.scr a = Memory.read s.scr a

theorem State.SameVisible.respondByte_effect {s u t : State} (hv : s.SameVisible u) (a : Nat) (ha : a < s.slen)
    (h : respondByte a s = .next t) : ∃ e : Effect, t = e.on s ∧ respondByte a u = .next (e.on u) := by
  obtain ⟨hcap, ht⟩ := respondByte_next s t a h
  refine ⟨.answer ⟨.ok, zextByte (Memory.read s.scr a)⟩, ht, ?_⟩
  rw [← hv.bytes a ha]
  exact respondByte_below u a (hv.cfg ▸ hcap)

theorem execRdscr_of_lt (s : State) (i : Nat) (h : i < s.slen) : execRdscr i s = respondByte i s := by
  simp [execRdscr, indexError, Nat.not_le.2 h]

theorem execRdwire_of_lt (s : State) (k : Nat) (h : k < s.slen) :
    execRdwire k s = respondByte (s.slen - 1 - k) s := by
  simp [execRdwire, indexError, Nat.not_le.2 h]

/-- An operation has the same effect on every state with the same visible part: an index is checked against `SLEN` before
a byte is read. -/
theorem State.SameVisible.exec_effect {s u t : State} (hv : s.SameVisible u) (i : Instr) (h : exec i s = .next t) :
    ∃ e : Effect, t = e.on s ∧ exec i u = .next (e.on u) := by
  -- Where `exec` answers both states with one effect, that effect is the one sought.
  have same (e : Effect) (hs : exec i s = .next (e.on s)) (hu : exec i u = .next (e.on u)) :
      ∃ e : Effect, t = e.on s ∧ exec i u = .next (e.on u) :=
    ⟨e, Host.Outcome.next.inj (h.symm.trans hs), hu⟩
  cases i with
  | scale g f =>
    cases hf : factorError s.cfg f with
    | none =>
      obtain ⟨h1, h2⟩ := (factorError_accepted s.cfg f).1 hf
      exact same (.column g f) (execScale_accepted g f s h1 h2) (execScale_accepted g f u h1 (hv.cfg ▸ h2))
    | some e =>
      exact same (.answer ⟨e, 0⟩) (execScale_refused g f s e hf) (execScale_refused g f u e (hv.cfg ▸ hf))
  | xlate rs re cs ce =>
    by_cases hb : CursorRect.inBounds ⟨rs, re, cs, ce⟩ = true
    · exact same (.answer _) (execXlate_accepted rs re cs ce s hb) (execXlate_accepted rs re cs ce u hb)
    · exact same (.answer _) (execXlate_refused rs re cs ce s hb) (execXlate_refused rs re cs ce u hb)
  | rdscr a =>
    obtain ha | ha := Nat.lt_or_ge a s.slen
    · obtain ⟨e, ht, hu⟩ := hv.respondByte_effect a ha ((execRdscr_of_lt s a ha).symm.trans h)
      exact ⟨e, ht, (execRdscr_of_lt u a (hv.slen ▸ ha)).trans hu⟩
    · exact same (.answer _) (execRdscr_refused s a ha) (execRdscr_refused u a (hv.slen ▸ ha))
  | rdwire k =>
    obtain hk | hk := Nat.lt_or_ge k s.slen
    · obtain ⟨e, ht, hu⟩ :=
        hv.respondByte_effect (s.slen - 1 - k) (by omega) ((execRdwire_of_lt s k hk).symm.trans h)
      rw [← hv.slen] at hu
      exact ⟨e, ht, (execRdwire_of_lt u k (hv.slen ▸ hk)).trans hu⟩
    · exact same (.answer _) (execRdwire_refused s k hk) (execRdwire_refused u k (hv.slen ▸ hk))
  | rdlen => exact same (.answer ⟨.ok, zext32 s.slen⟩) rfl (hv.slen ▸ rfl)
  | rdcap => exact same (.answer ⟨.ok, zext32 s.cfg.cap⟩) rfl (hv.cfg ▸ rfl)

/-- The same of a request word: a word that decodes to nothing is answered alike everywhere. -/
theorem State.SameVisible.runWord_effect {s u t : State} (hv : s.SameVisible u) (w : Word40)
    (h : runWord w s = .next t) : ∃ e : Effect, t = e.on s ∧ runWord w u = .next (e.on u) := by
  cases hd : decode w with
  | ok i =>
    rw [runWord_of_decode w i _ hd] at h ⊢
    exact hv.exec_effect i h
  | error e =>
    exact ⟨.answer ⟨.illegalOperation, 0⟩, Host.Outcome.next.inj (h.symm.trans (runWord_of_illegal w e s hd)),
      runWord_of_illegal w e u hd⟩

/-- Settles O36: with `SLEN = 0` no byte is visible, so the request has one effect on both blocks, and only a column
makes `SLEN` differ from 0. -/
theorem unwrittenScratchIsUnobservable : Obligations.UnwrittenScratchIsUnobservable := by
  intro s m w h0
  have hv : s.SameVisible (s.setScr m) := ⟨rfl, rfl, fun a ha => by omega⟩
  obtain ⟨t, ht⟩ := runWord_completes w s (by omega)
  obtain ⟨e, rfl, hu⟩ := hv.runWord_effect w ht
  refine ⟨_, _, e.response, ht, hu, e.on_responses s, e.on_responses (s.setScr m), ?_⟩
  cases e with
  | answer r => exact ⟨rfl, fun hne => absurd h0 hne⟩
  | column g f => exact ⟨rfl, fun _ => rfl⟩

/-- Settles O41: the responses delivered are no part of what a request reads, and a reset reads and delivers none. -/
theorem pastResponsesHaveNoInfluence : Obligations.PastResponsesHaveNoInfluence := by
  intro s t past h
  obtain ⟨hin, rfl⟩ | ⟨w, es, hin, hw⟩ | ⟨es, hin, rfl⟩ := step_cases s t h
  · exact ⟨[], (List.append_nil _).symm, by rw [List.append_nil]; exact step_idle { t with responses := past } hin⟩
  · have hv : (s.setInputs es).SameVisible ({ s with responses := past }.setInputs es) := ⟨rfl, rfl, fun _ _ => rfl⟩
    obtain ⟨e, rfl, hu⟩ := hv.runWord_effect w hw
    refine ⟨[e.response], e.on_responses _, (step_request { s with responses := past } w es hin).trans (hu.trans ?_)⟩
    cases e with
    | answer r => rfl
    | column g f => rfl
  · exact ⟨[], (List.append_nil _).symm, by rw [List.append_nil]; exact step_reset { s with responses := past } es hin⟩

end Sys2Proof.Machine

/-! The scratch memory (20_memory.md): the byte order of the column that SCALE leaves, what the reads leave unchanged, and
the order in which requests take effect. -/

namespace Sys2Proof.Machine

/-! ### The order of the pixels in `SCR` (R27, R28) -/

/-- Pixel `y` of the column is bit `y mod 8` of byte `y div 8`. -/
theorem getLsbD_scaledByte_pixel (g : Byte) (f y : Nat) :
    (scaledByte g f (y / 8)).getLsbD (y % 8) = g.getLsbD (y / f) := by
  rw [getLsbD_scaledByte g f _ _ (Nat.mod_lt y (by decide)), Nat.div_add_mod]

/-- Byte `i` of the column is `V[8i+7:8i]`, for the value `V` of all its pixels. -/
theorem scaledByte_eq_extractLsb' (g : Byte) (f i : Nat) (V : BitVec (8 * f))
    (hV : ∀ y, y < 8 * f → V.getLsbD y = g.getLsbD (y / f)) (hi : i < f) :
    scaledByte g f i = V.extractLsb' (8 * i) 8 := by
  apply BitVec.eq_of_getLsbD_eq
  intro b hb
  calc (scaledByte g f i).getLsbD b = g.getLsbD ((8 * i + b) / f) := getLsbD_scaledByte g f i b hb
    _ = V.getLsbD (8 * i + b) := (hV _ (by omega)).symm
    _ = (V.extractLsb' (8 * i) 8).getLsbD b := by simp [hb]

theorem read_scaleResult (g : Byte) (f : Nat) (s : State) (a : Nat) (ha : a < f) :
    Memory.read (scaleResult g f s).scr a = scaledByte g f a :=
  (Memory.read_fill f (scaledByte g f) a).trans (if_pos ha)

/-- Settles O13: the bytes an accepted SCALE leaves are those of the column, and the column has this order. -/
theorem scratchHoldsTheColumnLittleEndian : Obligations.ScratchHoldsTheColumnLittleEndian := by
  intro s g f h1 h2
  refine ⟨_, execScale_accepted g f s h1 h2, fun y hy => ?_, fun V hV i hi => ?_⟩
  · rw [read_scaleResult g f s _ (by omega), getLsbD_scaledByte_pixel]
  · rw [read_scaleResult g f s i hi, scaledByte_eq_extractLsb' g f i V hV hi]

/-! ### Reads and a repeated SCALE (R34) -/

/-- Where an operation other than SCALE answers a next state, it delivered one response and changed nothing else. -/
theorem exec_next_of_ne_scale (i : Instr) (s t : State) (hi : ∀ g f, i ≠ .scale g f) (h : exec i s = .next t) :
    ∃ r, t = s.deliver r := by
  obtain ⟨r, hr, -⟩ | ⟨g, f, hscale, -⟩ := exec_cases i s t h
  · exact ⟨r, hr⟩
  · exact absurd hscale (hi g f)

theorem Effect.response_eq_of_on_eq_deliver (e : Effect) (s : State) (r : Response) (h : e.on s = s.deliver r) :
    e.response = r := by
  have hresp : s.responses ++ [e.response] = s.responses ++ [r] :=
    (e.on_responses s).symm.trans (congrArg State.responses h)
  exact List.singleton_inj.1 (List.append_cancel_left hresp)

/-- An operation other than SCALE delivers one and the same response to every state with the same visible part, and changes
nothing else. -/
theorem exec_answers_sameVisible (i : Instr) (s t : State) (hi : ∀ g f, i ≠ .scale g f) (h : exec i s = .next t) :
    ∃ r, t = s.deliver r ∧ ∀ u, s.SameVisible u → exec i u = .next (u.deliver r) := by
  obtain ⟨r, rfl⟩ := exec_next_of_ne_scale i s t hi h
  refine ⟨r, rfl, fun u hv => ?_⟩
  obtain ⟨e, hs, hu⟩ := hv.exec_effect i h
  obtain ⟨r', hr'⟩ := exec_next_of_ne_scale i u _ hi hu
  have hrr : r' = r :=
    (e.response_eq_of_on_eq_deliver u r' hr').symm.trans (e.response_eq_of_on_eq_deliver s r hs.symm)
  rw [hu, hr', hrr]

/-- A repeated SCALE is refused again, or fills the scratch space with the column it holds. -/
theorem execScale_twice (g : Byte) (f : Nat) (s : State) :
    ∃ t r, execScale g f s = .next t ∧ execScale g f t = .next (t.deliver r) := by
  cases hf : factorError s.cfg f with
  | none =>
    obtain ⟨h1, h2⟩ := (factorError_accepted s.cfg f).1 hf
    exact ⟨scaleResult g f s, ⟨.ok, zext32 f⟩, execScale_accepted g f s h1 h2,
      execScale_accepted g f (scaleResult g f s) h1 h2⟩
  | some e =>
    exact ⟨s.deliver ⟨e, 0⟩, ⟨e, 0⟩, execScale_refused g f s e hf, execScale_refused g f (s.deliver ⟨e, 0⟩) e hf⟩

/-- Settles O30: states with equal `SCR`, `SLEN` and `CAP` have the same visible part, so a read is answered alike. -/
theorem readsChangeNothingAndRepeat : Obligations.ReadsChangeNothingAndRepeat := by
  refine ⟨fun i s t hi h => ?_, fun g f s => ?_⟩
  · obtain ⟨r, rfl, hsame⟩ := exec_answers_sameVisible i s t hi h
    exact ⟨r, rfl, fun _ => rfl, fun u hscr hslen hcfg => hsame u ⟨hcfg, hslen, fun _ _ => hscr ▸ rfl⟩⟩
  · obtain ⟨t, r, ht, hu⟩ := execScale_twice g f s
    exact ⟨t, t.deliver r, r, ht, hu, rfl⟩

/-! ### The order of requests (R37) -/

/-- A request is answered once, before the next input; a reset is not answered. -/
theorem applyEvent_responses_length (e : Event) (s t : State) (h : applyEvent e s = .next t) :
    t.responses.length = s.responses.length + if e = .reset then 0 else 1 := by
  cases e with
  | request w =>
    obtain ⟨r, rfl, -⟩ | ⟨g, f, -, -, -, rfl⟩ := runWord_cases w s t h
    · simp
    · simp [scaleResult]
  | reset =>
    obtain rfl := Host.Outcome.next.inj h
    rfl

/-- Settles O42, by induction over the first sequence: each input completes, and the rest runs from the state it left. -/
theorem requestsTakeEffectInOrder : Obligations.RequestsTakeEffectInOrder := by
  intro s a b hs
  induction a generalizing s with
  | nil => exact ⟨s.setInputs [], runEvents_nil s, rfl, rfl⟩
  | cons e a ih =>
    obtain ⟨u, hu⟩ := applyEvent_completes e s hs.slen_le
    obtain ⟨t, hta, htb, hlen⟩ := ih u (applyEvent_keeps_inv e s u hs hu)
    refine ⟨t, (runEvents_cons e a s u hu).trans hta, (runEvents_cons e (a ++ b) s u hu).trans htb, ?_⟩
    rw [hlen, applyEvent_responses_length e s u hu, List.countP_cons, Nat.add_assoc, Nat.add_comm (ite _ _ _)]
    by_cases he : e = .reset
    · simp [he]
    · simp [he]

end Sys2Proof.Machine

/-! The request word (30_encoding.md R42 to R52): decoding and encoding undo each other, a row is selected by its operation
code and its reserved fields, and a word that selects no row is answered `IllegalOperation`. -/

namespace Sys2Proof

/-! ### Decoding and encoding (R43, R44, R53) -/

theorem fieldOk_iff (n : Nat) : fieldOk n = true ↔ n < 256 := decide_eq_true_iff

@[simp] theorem fieldOk_toNat (b : Byte) : fieldOk b.toNat = true := (fieldOk_iff _).2 b.isLt

/-- A value that fits its field is read back from it. -/
theorem toNat_ofNat_of_fieldOk (n : Nat) (h : fieldOk n = true) : (BitVec.ofNat 8 n).toNat = n := by
  rw [BitVec.toNat_ofNat, Nat.mod_eq_of_lt ((fieldOk_iff n).1 h)]

/-- The word of an instruction selects the row of its operation. -/
theorem op_selects_encode (i : Instr) : i.op.selects (encode i) = true := by
  cases i with
  | scale g f => exact Laws.EncodesItsRow.scale g f
  | xlate rs re cs ce => exact Laws.EncodesItsRow.xlate rs re cs ce
  | rdscr i => exact Laws.EncodesItsRow.rdscr i
  | rdwire k => exact Laws.EncodesItsRow.rdwire k
  | rdlen => exact Laws.EncodesItsRow.rdlen
  | rdcap => exact Laws.EncodesItsRow.rdcap

/-- The fields of the word of a well-formed instruction are its operands. -/
theorem operands_encode (i : Instr) (h : i.wf = true) : i.op.operands (encode i) = i := by
  cases i with
  | scale g f => simp [Instr.op, Op.operands, encode, packWord_fields, toNat_ofNat_of_fieldOk f h]
  | xlate rs re cs ce =>
    simp only [Instr.wf, Bool.and_eq_true] at h
    obtain ⟨⟨⟨hrs, hre⟩, hcs⟩, hce⟩ := h
    simp only [Instr.op, Op.operands, encode, packWord_fields, toNat_ofNat_of_fieldOk, hrs, hre, hcs, hce]
  | rdscr i => simp only [Instr.op, Op.operands, encode, packWord_fields, toNat_ofNat_of_fieldOk i h]
  | rdwire k => simp only [Instr.op, Op.operands, encode, packWord_fields, toNat_ofNat_of_fieldOk k h]
  | rdlen => rfl
  | rdcap => rfl

/-- Settles O2: the word selects the row of the instruction's operation, and its fields are the operands. -/
theorem decodeOfEncodeIsTheInstruction : Obligations.DecodeOfEncodeIsTheInstruction := by
  intro i hwf
  calc decode (encode i) = .ok (i.op.operands (encode i)) := decode_of_selects i.op _ (op_selects_encode i)
    _ = .ok i := by rw [operands_encode i hwf]

/-- Settles O1: each word is the encoding of what it stands for. -/
theorem specWordsDecodeAsWritten : Obligations.SpecWordsDecodeAsWritten :=
  have decodes := decodeOfEncodeIsTheInstruction
  ⟨decodes (.scale 0x3C 2) rfl, decodes (.scale 0xFF 255) rfl, decodes (.xlate 1 6 64 71) rfl,
    decodes (.xlate 255 255 255 255) rfl, decodes (.rdscr 3) rfl, decodes (.rdwire 255) rfl,
    decodes .rdlen rfl, decodes .rdcap rfl⟩

/-- The fields a row reserves are zero in the word (R43). -/
def Op.reservedZero (op : Op) (w : Word40) : Prop :=
  match op with
  | .scale => fieldC w = 0 ∧ fieldD w = 0
  | .xlate => True
  | .rdscr | .rdwire => fieldB w = 0 ∧ fieldC w = 0 ∧ fieldD w = 0
  | .rdlen | .rdcap => fieldA w = 0 ∧ fieldB w = 0 ∧ fieldC w = 0 ∧ fieldD w = 0

/-- A word selects the row of its operation code, if the fields this row reserves are zero. -/
theorem selects_iff_fields (op : Op) (w : Word40) :
    op.selects w = true ↔ fieldOpc w = op.opcode ∧ op.reservedZero w := by
  have h := selects_packWord op (fieldOpc w) (fieldA w) (fieldB w) (fieldC w) (fieldD w)
  rw [packWord_of_fields] at h
  cases op with
  | _ => exact h

/-- The operands of a word are fields, so they fit. -/
theorem wf_operands (op : Op) (w : Word40) : (op.operands w).wf = true := by
  cases op with
  | xlate => simp [Op.operands, Instr.wf]
  | scale | rdscr | rdwire => exact fieldOk_toNat _
  | rdlen | rdcap => rfl

/-- The operation code, the operands and the zero reserved fields make up the whole word. -/
theorem encode_operands (op : Op) (w : Word40) (h : op.selects w = true) : encode (op.operands w) = w := by
  obtain ⟨hopc, hzero⟩ := (selects_iff_fields op w).1 h
  calc encode (op.operands w) = packWord (fieldOpc w) (fieldA w) (fieldB w) (fieldC w) (fieldD w) := by
        cases op with
        | _ => simp_all [Op.operands, Op.reservedZero, Op.opcode, encode]
    _ = w := packWord_of_fields w

/-- Settles O3: what decodes was read from the fields of the row it selects. -/
theorem legalWordIsTheEncodingOfItsInstruction : Obligations.LegalWordIsTheEncodingOfItsInstruction := by
  intro w i h
  obtain ⟨op, hop, rfl⟩ := selects_of_decode w i h
  exact ⟨wf_operands op w, encode_operands op w hop⟩

/-! ### The rows (R48) -/

theorem selects_iff_mask (op : Op) (w : Word40) : op.selects w = true ↔ w &&& op.maskBits = op.matchBits := beq_iff_eq

theorem selects_unique (op op' : Op) (w : Word40) (h : op.selects w = true) (h' : op'.selects w = true) : op = op' :=
  opcode_inj op op' (((selects_iff_fields op w).1 h).1.symm.trans ((selects_iff_fields op' w).1 h').1)

/-- A word decodes to an instruction of the operation whose row it selects, and of no other. -/
theorem decodes_to_op_iff (op : Op) (w : Word40) : (∃ i, decode w = .ok i ∧ i.op = op) ↔ op.selects w = true := by
  constructor
  · rintro ⟨i, hd, rfl⟩
    obtain ⟨op, hop, rfl⟩ := selects_of_decode w i hd
    rwa [operands_op]
  · intro h
    exact ⟨op.operands w, decode_of_selects op w h, operands_op op w⟩

namespace Machine

/-- A request whose word selects no row is answered `IllegalOperation`, and nothing else changes (R49). -/
theorem step_of_not_selects (s : State) (w : Word40) (es : List Event) (hin : s.inputs = .request w :: es)
    (h : ∀ op : Op, ¬ op.selects w = true) :
    step s = .next { s with inputs := es, responses := s.responses ++ [⟨.illegalOperation, 0⟩] } :=
  (step_request s w es hin).trans
    (runWord_of_not_selects w (s.setInputs es) fun op => Bool.eq_false_of_not_eq_true (h op))

/-- Settles O4: each clause is said of `Op.selects`, which is the comparison of the masked word. -/
theorem rowsSelectByMaskAndMatch : Obligations.RowsSelectByMaskAndMatch := by
  refine ⟨rfl, fun w => ⟨fun op => ?_, fun op op' h h' => ?_, fun s es hin _ hno => ?_⟩⟩
  · exact (decodes_to_op_iff op w).trans (selects_iff_mask op w)
  · exact selects_unique op op' w ((selects_iff_mask op w).2 h) ((selects_iff_mask op' w).2 h')
  · exact step_of_not_selects s w es hin fun op hop => hno op ((selects_iff_mask op w).1 hop)

/-- Settles O5: the operation code would have to be that of a row whose reserved fields are zero. -/
theorem illegalWordsAnswerIllegalOperation : Obligations.IllegalWordsAnswerIllegalOperation := by
  intro s w es hin hillegal
  refine step_of_not_selects s w es hin fun op hop => ?_
  obtain ⟨hopc, hzero⟩ := (selects_iff_fields op w).1 hop
  rw [hopc] at hillegal
  cases op with
  | _ => simp_all [Op.opcode, Op.reservedZero]

end Machine

end Sys2Proof

/-! The response word and the link (30_encoding.md R45, R46, R52): the fields of a response word, the order of the bytes of
a word, and the one response of every request. -/

namespace Sys2Proof.Machine

/-! ### The response word (R45, R94) -/

/-- `RESP[39:32]` is the status code. -/
@[simp] theorem Response.word_status (r : Response) : r.word.extractLsb' 32 8 = r.status.code :=
  BitVec.extractLsb'_append_eq_left

/-- `RESP[31:0]` is the data. -/
@[simp] theorem Response.word_data (r : Response) : r.word.extractLsb' 0 32 = r.data :=
  BitVec.extractLsb'_append_eq_right

@[simp] theorem Status.ofCode_code (st : Status) : Status.ofCode st.code = some st := by
  cases st with
  | _ => rfl

theorem Status.code_of_ofCode (c : Byte) (st : Status) (h : Status.ofCode c = some st) : st.code = c :=
  eq_of_beq (List.find?_some (p := fun st : Status => st.code == c) h)

/-- The status codes are `0x00` to `0x05` (R94). -/
theorem Status.ofCode_isSome_iff (c : Byte) : (Status.ofCode c).isSome = true ↔ c.toNat ≤ 5 := by
  constructor
  · intro h
    obtain ⟨st, hst⟩ := Option.isSome_iff_exists.1 h
    obtain rfl := Status.code_of_ofCode c st hst
    cases st with
    | _ => decide
  · revert c
    decide

theorem Status.code_eq_zero_iff (st : Status) : st.code = 0 ↔ st = .ok := by
  cases st with
  | _ => decide

theorem Response.ofWord_eq (w : Word40) :
    Response.ofWord w = (Status.ofCode (w.extractLsb' 32 8)).map (⟨·, w.extractLsb' 0 32⟩) := by
  unfold Response.ofWord
  cases Status.ofCode (w.extractLsb' 32 8) with
  | _ => rfl

/-- Settles O7: a word is its two fields, and only the status field can fail to be one of a response. -/
theorem responseWordReadsBack : Obligations.ResponseWordReadsBack := by
  refine ⟨fun r => ?_, fun w r h => ?_, fun w => ?_⟩
  · simp [Response.ofWord_eq]
  · rw [Response.ofWord_eq] at h
    obtain ⟨st, hst, rfl⟩ := Option.map_eq_some_iff.1 h
    calc st.code ++ w.extractLsb' 0 32 = w.extractLsb' 32 8 ++ w.extractLsb' 0 32 := by
          rw [Status.code_of_ofCode _ st hst]
      _ = w.extractLsb' 0 40 := BitVec.extractLsb'_append_extractLsb'_eq_extractLsb' rfl
      _ = w := BitVec.extractLsb'_eq_self
  · rw [Response.ofWord_eq, Option.isSome_map, Status.ofCode_isSome_iff]

/-! ### Words on a byte-wide link (R52) -/

/-- The bytes of a word read back as the word, whatever follows. -/
theorem linkWord_linkBytes (w : Word40) (rest : List Byte) : linkWord (linkBytes w ++ rest) = some (w, rest) :=
  congrArg (fun v => some (v, rest)) (packWord_of_fields w)

/-- Settles O6: the link carries the five fields in order, and a word is the word of its fields. -/
theorem linkCarriesMostSignificantByteFirst : Obligations.LinkCarriesMostSignificantByteFirst := by
  refine ⟨fun w rest => ⟨rfl, linkWord_linkBytes w rest⟩, fun r => ⟨?_, linkWord_linkBytes r.word []⟩⟩
  exact congrArg some r.word_status

/-! ### The response of a request (R45, R46) -/

/-- The word of a response that carries no data on an error has a zero data field wherever its status field is not zero. -/
theorem Response.word_data_eq_zero (r : Response) (hr : r.status ≠ .ok → r.data = 0)
    (h : r.word.extractLsb' 32 8 ≠ 0) : r.word.extractLsb' 0 32 = 0 := by
  rw [word_status, ne_eq, Status.code_eq_zero_iff] at h
  rw [word_data, hr h]

/-- Settles O8: a request word completes with one response, and a response that is not OK carries no data. -/
theorem everyRequestGetsExactlyOneResponse : Obligations.EveryRequestGetsExactlyOneResponse := by
  intro s w es hs hin
  obtain ⟨t, ht⟩ := runWord_completes w (s.setInputs es) hs.slen_le
  have hstep : step s = .next t := (step_request s w es hin).trans ht
  obtain ⟨r, rfl, hr, -⟩ | ⟨g, f, -, -, -, rfl⟩ := runWord_cases w (s.setInputs es) t ht
  · exact ⟨_, r, hstep, rfl, rfl, r.word_status, r.word_data, r.word_data_eq_zero hr⟩
  · exact ⟨_, ⟨.ok, zext32 f⟩, hstep, rfl, rfl, Response.word_status _, Response.word_data _,
      Response.word_data_eq_zero _ fun hne => absurd rfl hne⟩

/-- The data an operation answers OK with, read off the state before it (R46). -/
def okData (s : State) : Instr → Data
  | .scale _ f => zext32 f
  | .xlate rs re cs ce => packData cs ce (7 - re) (7 - rs)
  | .rdscr i => zextByte (Memory.read s.scr i)
  | .rdwire k => zextByte (Memory.read s.scr (s.slen - 1 - k))
  | .rdlen => zext32 s.slen
  | .rdcap => zext32 s.cfg.cap

/-- The state an operation answered OK leaves. -/
def okState (s : State) : Instr → State
  | .scale g f => scaleResult g f s
  | i => s.deliver ⟨.ok, okData s i⟩

theorem okState_responses (s : State) (i : Instr) :
    (okState s i).responses = s.responses ++ [⟨.ok, okData s i⟩] := by
  cases i with
  | _ => rfl

/-- An operation is answered with an error that changes nothing, or OK. -/
theorem exec_error_or_ok (i : Instr) (s : State) (hlen : s.slen ≤ s.cfg.cap) :
    (∃ e, exec i s = .next (s.deliver ⟨e, 0⟩) ∧ e ≠ .ok) ∨ exec i s = .next (okState s i) := by
  cases i with
  | scale g f =>
    obtain ⟨-, h⟩ | ⟨-, -, h⟩ | ⟨-, -, h⟩ := execScale_cases g f s
    · exact .inl ⟨_, h, nofun⟩
    · exact .inl ⟨_, h, nofun⟩
    · exact .inr h
  | xlate rs re cs ce =>
    by_cases hb : CursorRect.inBounds ⟨rs, re, cs, ce⟩ = true
    · exact .inr (execXlate_accepted rs re cs ce s hb)
    · exact .inl ⟨_, execXlate_refused rs re cs ce s hb, nofun⟩
  | rdscr a =>
    obtain ha | ha := Nat.lt_or_ge a s.slen
    · exact .inr (execRdscr_valid s a ha hlen)
    · exact .inl ⟨_, execRdscr_refused s a ha, nofun⟩
  | rdwire k =>
    obtain hk | hk := Nat.lt_or_ge k s.slen
    · exact .inr (execRdwire_valid s k hk hlen)
    · exact .inl ⟨_, execRdwire_refused s k hk, nofun⟩
  | rdlen => exact .inr rfl
  | rdcap => exact .inr rfl

theorem zext32_toNat (n : Nat) (h : n < 2 ^ 32) : (zext32 n).toNat = n := (BitVec.toNat_ofNat n 32).trans (Nat.mod_eq_of_lt h)

theorem zextByte_toNat (b : Byte) : (zextByte b).toNat = b.toNat := BitVec.toNat_setWidth_of_le (by decide)

/-- The four values of a packed `DATA`, each of which fits its byte. -/
theorem packData_toNat (a b c d : Nat) (ha : a < 256) (hb : b < 256) (hc : c < 256) (hd : d < 256) :
    ((packData a b c d).extractLsb' 24 8).toNat = a ∧ ((packData a b c d).extractLsb' 16 8).toNat = b ∧
    ((packData a b c d).extractLsb' 8 8).toNat = c ∧ ((packData a b c d).extractLsb' 0 8).toNat = d := by
  simp only [packData_fields, BitVec.toNat_ofNat]
  omega

/-- Settles O10: the operands fit their fields, `SLEN` and `CAP` are at most 8, so no narrowing of a result loses a bit. -/
theorem okDataIsTheOperationsResult : Obligations.OkDataIsTheOperationsResult := by
  intro s w es hs hin
  have hcap : s.cfg.cap ≤ 8 := hs.valid.2
  have hlen : s.slen ≤ s.cfg.cap := hs.slen_le
  have hstep := step_request s w es hin
  cases hd : decode w with
  | error e =>
    exact ⟨_, _, hstep.trans (runWord_of_illegal w e _ hd), rfl, nofun⟩
  | ok i =>
    rw [runWord_of_decode w i _ hd] at hstep
    obtain ⟨e, h, he⟩ | h := exec_error_or_ok i (s.setInputs es) hlen
    · exact ⟨_, ⟨e, 0⟩, hstep.trans h, rfl, fun hok => absurd hok he⟩
    refine ⟨_, _, hstep.trans h, okState_responses _ i, fun _ => ?_⟩
    have hwf := (legalWordIsTheEncodingOfItsInstruction w i hd).1
    cases i with
    | scale g f => exact ⟨zext32_toNat f (by have := (fieldOk_iff f).1 hwf; omega), rfl⟩
    | xlate rs re cs ce =>
      simp only [Instr.wf, Bool.and_eq_true, fieldOk_iff] at hwf
      obtain ⟨⟨⟨hrs, hre⟩, hcs⟩, hce⟩ := hwf
      exact packData_toNat cs ce (7 - re) (7 - rs) hcs hce (by omega) (by omega)
    | rdscr a => exact zextByte_toNat _
    | rdwire k => exact zextByte_toNat _
    | rdlen => exact zext32_toNat s.slen (by omega)
    | rdcap => exact zext32_toNat s.cfg.cap (by omega)

end Sys2Proof.Machine

/-! The pseudo-instructions (30_encoding.md R54): a statement is refused where it expands to nothing, or to an operation
that does not fit its word. -/

namespace Sys2Proof.Machine

/-! ### The words of a statement (R53, R54) -/

theorem Stmt.words_of_expand (st : Stmt) (is : List Instr) (h : st.expand = some is) :
    st.words = if is.all Instr.wf then .ok (is.map encode) else .error .outOfRange := by
  cases st with
  | req w => cases h
  | _ => simp only [Stmt.words, h]

theorem Stmt.words_of_wf (st : Stmt) (is : List Instr) (h : st.expand = some is) (hwf : is.all Instr.wf = true) :
    st.words = .ok (is.map encode) := (st.words_of_expand is h).trans (if_pos hwf)

theorem Stmt.words_refused (st : Stmt) (hst : ∀ w, st ≠ .req w) (h : st.expand = none) :
    st.words = .error .outOfRange := by
  cases st with
  | req w => exact absurd rfl (hst w)
  | _ => simp only [Stmt.words, h]

/-! ### Reads in a row -/

theorem emitInstrs_wf (n : Nat) (h : n ≤ 8) : (emitInstrs n).all Instr.wf = true := by
  simp only [emitInstrs, List.all_map, List.all_eq_true, List.mem_range]
  exact fun k hk => (fieldOk_iff k).2 (by omega)

theorem dumpInstrs_wf (n : Nat) (h : n ≤ 8) : (dumpInstrs n).all Instr.wf = true := by
  simp only [dumpInstrs, List.all_map, List.all_eq_true, List.mem_range]
  exact fun k hk => (fieldOk_iff k).2 (by omega)

theorem map_encode_emitInstrs (n : Nat) : (emitInstrs n).map encode =
    (List.range n).map (fun k => packWord 0x04 (BitVec.ofNat 8 k) 0x00 0x00 0x00) := List.map_map

theorem map_encode_dumpInstrs (n : Nat) : (dumpInstrs n).map encode =
    (List.range n).map (fun k => packWord 0x03 (BitVec.ofNat 8 k) 0x00 0x00 0x00) := List.map_map

/-! ### `glyphcol` -/

/-- The starts of the rectangle are at most its ends, so only the ends can be too large. -/
theorem glyphXlate_wf_iff (f r c j : Nat) (hf : 1 ≤ f) :
    (glyphXlate f r c j).wf = true ↔ r + f - 1 ≤ 255 ∧ c + j * f + f - 1 ≤ 255 := by
  simp only [glyphXlate, Instr.wf, Bool.and_eq_true, fieldOk_iff]
  omega

/-- The operations of `glyphcol` fit their words exactly where its XLATE does. -/
theorem glyphcol_all_wf (g : Byte) (f r c j : Nat) (hf : f ≤ 8) :
    (Instr.scale g f :: glyphXlate f r c j :: emitInstrs f).all Instr.wf = (glyphXlate f r c j).wf := by
  have hscale : (Instr.scale g f).wf = true := (fieldOk_iff f).2 (by omega)
  rw [List.all_cons, List.all_cons, hscale, emitInstrs_wf f hf, Bool.true_and, Bool.and_true]

theorem words_glyphcol (g : Byte) (f r c j : Nat) (h1 : 1 ≤ f) (h8 : f ≤ 8) (hj : j ≤ 7) :
    Stmt.words (.glyphcol g f r c j) =
      if r + f - 1 ≤ 255 ∧ c + j * f + f - 1 ≤ 255 then
        .ok (encode (.scale g f) :: encode (glyphXlate f r c j) :: (emitInstrs f).map encode)
      else .error .outOfRange := by
  have hexpand : (Stmt.glyphcol g f r c j).expand = some (.scale g f :: glyphXlate f r c j :: emitInstrs f) :=
    if_pos ⟨h1, h8, hj⟩
  rw [Stmt.words_of_expand _ _ hexpand, glyphcol_all_wf g f r c j h8]
  simp only [glyphXlate_wf_iff f r c j h1, List.map_cons]

/-- Settles O46: where a statement expands, its reads fit their words, so only the rectangle of a `glyphcol` can be too
large. -/
theorem pseudoInstructionsExpandAsListed : Obligations.PseudoInstructionsExpandAsListed := by
  refine ⟨fun r cs ce => rfl, fun n => ?_, fun n => ?_, fun g f r c j => ?_⟩
  · split_ifs with h
    · rw [Stmt.words_of_wf (.emit n) (emitInstrs n) (if_pos h) (emitInstrs_wf n h.2), map_encode_emitInstrs]
    · exact Stmt.words_refused (.emit n) nofun (if_neg h)
  · split_ifs with h
    · rw [Stmt.words_of_wf (.dump n) (dumpInstrs n) (if_pos h) (dumpInstrs_wf n h.2), map_encode_dumpInstrs]
    · exact Stmt.words_refused (.dump n) nofun (if_neg h)
  · by_cases h : 1 ≤ f ∧ f ≤ 8 ∧ j ≤ 7
    · obtain ⟨h1, h8, hj⟩ := h
      rw [words_glyphcol g f r c j h1 h8 hj, map_encode_emitInstrs]
      simp only [h1, h8, hj, true_and]
      rfl
    · rw [if_neg fun hall => h ⟨hall.1, hall.2.1, hall.2.2.1⟩]
      exact Stmt.words_refused (.glyphcol g f r c j) nofun (if_neg h)

end Sys2Proof.Machine

/-! The disassembler's text assembles to the word it was printed from (30_encoding.md R53, R55). The text is a name and
operands, all of them tokens: no blank, comma or comment mark stands inside one. So the assembler cuts it where the
disassembler joined it, and each operand reads back as its number. -/

namespace Sys2Proof.Machine

/-! ### Tokens -/

/-- A character that the assembler neither cuts at nor drops. -/
def isPlain (c : Char) : Bool := !isBlank c && c != ',' && c != ';'

theorem isPlain_iff (c : Char) : isPlain c = true ↔ isBlank c = false ∧ c ≠ ',' ∧ c ≠ ';' := by
  simp [isPlain, and_assoc]

/-- A name or an operand as it is printed. -/
structure IsToken (t : List Char) : Prop where
  ne_nil : t ≠ []
  plain : ∀ c ∈ t, isPlain c = true

theorem isPlain_lowerChar (c : Char) (h : isPlain c = true) : isPlain (lowerChar c) = true := by
  have upper : ∀ n, n < 91 → 65 ≤ n → isPlain (Char.ofNat (n + 32)) = true := by decide
  unfold lowerChar
  split_ifs with hc
  · exact upper c.toNat (Nat.lt_succ_of_le hc.2) hc.1
  · exact h

theorem IsToken.lower {t : List Char} (h : IsToken t) : IsToken (t.map lowerChar) where
  ne_nil := by simpa using h.ne_nil
  plain := List.forall_mem_map.2 fun c hc => isPlain_lowerChar c (h.plain c hc)

theorem isToken_lower_all (ts : List (List Char)) (h : ∀ t ∈ ts, IsToken t) :
    ∀ t ∈ ts.map (List.map lowerChar), IsToken t := List.forall_mem_map.2 fun t ht => (h t ht).lower

theorem IsToken.not_blank {t : List Char} (h : IsToken t) : ∀ c ∈ t, isBlank c = false :=
  fun c hc => ((isPlain_iff c).1 (h.plain c hc)).1

theorem IsToken.no_comma {t : List Char} (h : IsToken t) : ',' ∉ t :=
  fun hc => ((isPlain_iff _).1 (h.plain _ hc)).2.1 rfl

theorem IsToken.no_semicolon {t : List Char} (h : IsToken t) : ';' ∉ t :=
  fun hc => ((isPlain_iff _).1 (h.plain _ hc)).2.2 rfl

/-! ### Blanks at the ends -/

/-- The text begins with a character that is no blank. -/
def StartsPlain (t : List Char) : Prop := ∃ c u, t = c :: u ∧ isBlank c = false

/-- The text ends with a character that is no blank. -/
def EndsPlain (t : List Char) : Prop := ∃ u c, t = u ++ [c] ∧ isBlank c = false

theorem StartsPlain.append {t : List Char} (h : StartsPlain t) (u : List Char) : StartsPlain (t ++ u) := by
  obtain ⟨c, v, rfl, hc⟩ := h
  exact ⟨c, v ++ u, rfl, hc⟩

theorem EndsPlain.append_left {u : List Char} (h : EndsPlain u) (t : List Char) : EndsPlain (t ++ u) := by
  obtain ⟨v, c, rfl, hc⟩ := h
  exact ⟨t ++ v, c, (List.append_assoc t v [c]).symm, hc⟩

theorem IsToken.startsPlain {t : List Char} (h : IsToken t) : StartsPlain t := by
  obtain ⟨c, u, rfl⟩ := List.exists_cons_of_ne_nil h.ne_nil
  exact ⟨c, u, rfl, h.not_blank c (by simp)⟩

theorem IsToken.endsPlain {t : List Char} (h : IsToken t) : EndsPlain t := by
  obtain ⟨u, c, rfl⟩ := (List.eq_nil_or_concat' t).resolve_left h.ne_nil
  exact ⟨u, c, rfl, h.not_blank c (by simp)⟩

theorem trimBlanks_eq_self (t : List Char) (hs : StartsPlain t) (he : EndsPlain t) : trimBlanks t = t := by
  have hfront : t.dropWhile isBlank = t := by
    obtain ⟨c, u, rfl, hc⟩ := hs
    exact List.dropWhile_cons_of_neg (by simp [hc])
  obtain ⟨u, c, rfl, hc⟩ := he
  rw [trimBlanks, hfront, List.reverse_concat, List.dropWhile_cons_of_neg (by simp [hc]), List.reverse_cons,
    List.reverse_reverse]

theorem IsToken.trimBlanks_eq {t : List Char} (h : IsToken t) : trimBlanks t = t :=
  trimBlanks_eq_self t h.startsPlain h.endsPlain

@[simp] theorem trimBlanks_space (t : List Char) : trimBlanks (' ' :: t) = trimBlanks t := rfl

/-! ### Operands joined by commas, and cut at them -/

@[simp] theorem operandList_cons_cons (t u : List Char) (ts : List (List Char)) :
    operandList (t :: u :: ts) = t ++ ',' :: ' ' :: operandList (u :: ts) := rfl

theorem map_lowerChar_operandList (ts : List (List Char)) :
    (operandList ts).map lowerChar = operandList (ts.map (List.map lowerChar)) := by
  induction ts with
  | nil => rfl
  | cons t ts ih =>
    cases ts with
    | nil => rfl
    | cons u ts =>
      rw [operandList_cons_cons, List.map_append, List.map_cons, List.map_cons, ih]
      rfl

theorem operandList_no_semicolon (ts : List (List Char)) (hts : ∀ t ∈ ts, IsToken t) : ';' ∉ operandList ts := by
  induction ts with
  | nil => exact List.not_mem_nil
  | cons t ts ih =>
    obtain ⟨ht, hts⟩ := List.forall_mem_cons.1 hts
    cases ts with
    | nil => exact ht.no_semicolon
    | cons u ts => simp [ht.no_semicolon, ih hts]

theorem operandList_startsPlain (t : List Char) (ts : List (List Char)) (ht : IsToken t) :
    StartsPlain (operandList (t :: ts)) := by
  cases ts with
  | nil => exact ht.startsPlain
  | cons u ts => exact ht.startsPlain.append _

theorem operandList_endsPlain (t : List Char) (ts : List (List Char)) (hts : ∀ u ∈ t :: ts, IsToken u) :
    EndsPlain (operandList (t :: ts)) := by
  induction ts generalizing t with
  | nil => exact (hts t (by simp)).endsPlain
  | cons u ts ih => exact ((ih u (List.forall_mem_cons.1 hts).2).append_left [',', ' ']).append_left t

theorem trimBlanks_operandList (ts : List (List Char)) (hts : ∀ t ∈ ts, IsToken t) :
    trimBlanks (operandList ts) = operandList ts := by
  cases ts with
  | nil => rfl
  | cons t ts =>
    exact trimBlanks_eq_self _ (operandList_startsPlain t ts (hts t (by simp))) (operandList_endsPlain t ts hts)

theorem splitCommas_ne_nil (t : List Char) : splitCommas t ≠ [] := by
  cases t with
  | nil => simp [splitCommas]
  | cons c t =>
    unfold splitCommas
    split
    · simp
    · split_ifs <;> simp

theorem splitCommas_comma (u : List Char) : splitCommas (',' :: u) = [] :: splitCommas u := by
  obtain ⟨part, parts, h⟩ := List.exists_cons_of_ne_nil (splitCommas_ne_nil u)
  simp [splitCommas, h]

/-- A character that is no comma stays with the part it stands before. -/
theorem splitCommas_cons (c : Char) (u part : List Char) (parts : List (List Char)) (hc : c ≠ ',')
    (h : splitCommas u = part :: parts) : splitCommas (c :: u) = (c :: part) :: parts := by
  simp [splitCommas, h, hc]

theorem splitCommas_append_comma (t u : List Char) (h : ',' ∉ t) :
    splitCommas (t ++ ',' :: u) = t :: splitCommas u := by
  induction t with
  | nil => exact splitCommas_comma u
  | cons c t ih =>
    obtain ⟨hc, ht⟩ := List.ne_and_not_mem_of_not_mem_cons h
    exact splitCommas_cons c _ _ _ (hc.symm) (ih ht)

theorem splitCommas_of_no_comma (t : List Char) (h : ',' ∉ t) : splitCommas t = [t] := by
  induction t with
  | nil => rfl
  | cons c t ih =>
    obtain ⟨hc, ht⟩ := List.ne_and_not_mem_of_not_mem_cons h
    exact splitCommas_cons c _ _ _ (hc.symm) (ih ht)

/-- The blank after a comma is no part of the operand. -/
theorem readOperands_splitCommas_space (u : List Char) :
    readOperands (splitCommas (' ' :: u)) = readOperands (splitCommas u) := by
  obtain ⟨part, parts, h⟩ := List.exists_cons_of_ne_nil (splitCommas_ne_nil u)
  rw [splitCommas_cons ' ' u part parts (by decide) h, h]
  rfl

theorem readOperands_cons_congr (t : List Char) (ts us : List (List Char)) (h : readOperands ts = readOperands us) :
    readOperands (t :: ts) = readOperands (t :: us) := by
  simp only [readOperands, h]

/-- The operands of a joined list are read as the list. -/
theorem readOperands_splitCommas_operandList (t : List Char) (ts : List (List Char)) (hts : ∀ u ∈ t :: ts, IsToken u) :
    readOperands (splitCommas (operandList (t :: ts))) = readOperands (t :: ts) := by
  induction ts generalizing t with
  | nil => exact congrArg readOperands (splitCommas_of_no_comma t (hts t (by simp)).no_comma)
  | cons u ts ih =>
    obtain ⟨ht, hts⟩ := List.forall_mem_cons.1 hts
    rw [operandList_cons_cons, splitCommas_append_comma t _ ht.no_comma]
    exact readOperands_cons_congr t _ _ ((readOperands_splitCommas_space _).trans (ih u hts))

/-! ### A printed line -/

/-- A name and operands as the disassembler prints them. -/
def printedLine (name : List Char) : List (List Char) → List Char
  | [] => name
  | t :: ts => name ++ ' ' :: operandList (t :: ts)

theorem printedLine_no_semicolon (name : List Char) (ts : List (List Char)) (hn : IsToken name)
    (hts : ∀ t ∈ ts, IsToken t) : ';' ∉ printedLine name ts := by
  cases ts with
  | nil => exact hn.no_semicolon
  | cons t ts => simp [printedLine, hn.no_semicolon, operandList_no_semicolon _ hts]

theorem map_lowerChar_printedLine (name : List Char) (ts : List (List Char)) :
    (printedLine name ts).map lowerChar = printedLine (name.map lowerChar) (ts.map (List.map lowerChar)) := by
  cases ts with
  | nil => rfl
  | cons t ts =>
    rw [printedLine, List.map_append, List.map_cons, map_lowerChar_operandList]
    rfl

theorem trimBlanks_printedLine (name : List Char) (ts : List (List Char)) (hn : IsToken name)
    (hts : ∀ t ∈ ts, IsToken t) : trimBlanks (printedLine name ts) = printedLine name ts := by
  cases ts with
  | nil => exact hn.trimBlanks_eq
  | cons t ts =>
    exact trimBlanks_eq_self _ (hn.startsPlain.append _)
      (((operandList_endsPlain t ts hts).append_left [' ']).append_left name)

/-- Of a printed line, all counts; only the case of its letters is lost. -/
theorem lineText_printedLine (name : List Char) (ts : List (List Char)) (hn : IsToken name)
    (hts : ∀ t ∈ ts, IsToken t) :
    lineText (printedLine name ts) = printedLine (name.map lowerChar) (ts.map (List.map lowerChar)) := by
  have hall : (printedLine name ts).takeWhile (· ≠ ';') = printedLine name ts :=
    List.takeWhile_eq_self_iff.2 fun c hc =>
      decide_eq_true fun h => printedLine_no_semicolon name ts hn hts (h ▸ hc)
  rw [lineText, hall, map_lowerChar_printedLine]
  exact trimBlanks_printedLine _ _ hn.lower (isToken_lower_all ts hts)

theorem printedLine_ne_nil (name : List Char) (ts : List (List Char)) (hn : IsToken name) : printedLine name ts ≠ [] := by
  cases ts with
  | nil => exact hn.ne_nil
  | cons t ts => simp [printedLine]

theorem IsToken.all_not_blank {t : List Char} (h : IsToken t) : ∀ c ∈ t, (!isBlank c) = true :=
  fun c hc => by rw [h.not_blank c hc, Bool.not_false]

theorem takeWhile_printedLine (name : List Char) (ts : List (List Char)) (hn : IsToken name) :
    (printedLine name ts).takeWhile (fun c => !isBlank c) = name := by
  cases ts with
  | nil => exact List.takeWhile_eq_self_iff.2 hn.all_not_blank
  | cons t ts =>
    rw [printedLine, List.takeWhile_append_of_pos hn.all_not_blank, List.takeWhile_cons_of_neg (by decide), List.append_nil]

theorem trimBlanks_dropWhile_printedLine (name : List Char) (ts : List (List Char)) (hn : IsToken name)
    (hts : ∀ t ∈ ts, IsToken t) :
    trimBlanks ((printedLine name ts).dropWhile (fun c => !isBlank c)) = operandList ts := by
  cases ts with
  | nil => rw [printedLine, List.dropWhile_eq_nil_iff.2 hn.all_not_blank]; rfl
  | cons t ts =>
    rw [printedLine, List.dropWhile_append_of_pos hn.all_not_blank, List.dropWhile_cons_of_neg (by decide), trimBlanks_space,
      trimBlanks_operandList _ hts]

/-- The operands of a line, where it has any. -/
theorem readOperands_rest (ts : List (List Char)) (hts : ∀ t ∈ ts, IsToken t) :
    (if operandList ts = [] then Except.ok [] else readOperands (splitCommas (operandList ts))) = readOperands ts := by
  cases ts with
  | nil => rfl
  | cons t ts =>
    obtain ⟨c, u, hcu, -⟩ := operandList_startsPlain t ts (hts t (by simp))
    rw [if_neg (by simp [hcu]), readOperands_splitCommas_operandList t ts hts]

/-- A line whose text is a name with operands is the statement of that name with their values. -/
theorem parseLine_of_operands (line name : List Char) (ts : List (List Char)) (ns : List Nat) (st : Stmt)
    (hline : lineText line = printedLine name ts) (hn : IsToken name) (hts : ∀ t ∈ ts, IsToken t)
    (hreq : name ≠ ['.', 'r', 'e', 'q']) (hns : readOperands ts = .ok ns) (hst : stmtOf name ns = .ok st) :
    parseLine line = .ok (some st) := by
  simp only [parseLine, hline, printedLine_ne_nil name ts hn, takeWhile_printedLine name ts hn,
    trimBlanks_dropWhile_printedLine name ts hn hts, readOperands_rest ts hts, hreq, hns, hst, if_false]

/-- A line whose text is `.req` with an operand is the word of the operand. -/
theorem parseLine_of_req (line t : List Char) (st : Stmt) (hline : lineText line = printedLine ['.', 'r', 'e', 'q'] [t])
    (ht : IsToken t) (hst : readReq t = .ok st) : parseLine line = .ok (some st) := by
  have hn : IsToken ['.', 'r', 'e', 'q'] := ⟨nofun, List.all_eq_true.1 rfl⟩
  have hts : ∀ u ∈ [t], IsToken u := by simpa using ht
  simp only [parseLine, hline, printedLine_ne_nil _ _ hn, takeWhile_printedLine _ _ hn,
    trimBlanks_dropWhile_printedLine _ _ hn hts, operandList, hst, if_false, if_true]

end Sys2Proof.Machine

/-! The numerals the disassembler prints read back as their numbers (30_encoding.md R53, R55), and so a printed instruction
and a printed `.req` assemble to their word. -/

namespace Sys2Proof.Machine

/-! ### Digits -/

theorem isPlain_hexDigit : ∀ d, d < 16 → isPlain (hexDigit d) = true := by decide

/-- A digit reads back in either case. -/
theorem digitValue_lowerChar_hexDigit : ∀ d, d < 16 → digitValue 16 (lowerChar (hexDigit d)) = some d := by decide

theorem digitValue_decimalDigit : ∀ d, d < 10 → digitValue 10 (hexDigit d) = some d := by decide

theorem lowerChar_decimalDigit : ∀ d, d < 10 → lowerChar (hexDigit d) = hexDigit d := by decide

theorem readDigits_cons (base acc d : Nat) (c : Char) (t : List Char) (h : digitValue base c = some d) :
    readDigits base acc (c :: t) = readDigits base (acc * base + d) t := by
  simp only [readDigits, h]

theorem readNonempty_of_ne_nil (base : Nat) (t : List Char) (h : t ≠ []) :
    readNonempty base t = readDigits base 0 t := by
  obtain ⟨c, u, rfl⟩ := List.exists_cons_of_ne_nil h
  rfl

/-! ### Hexadecimal -/

theorem length_hexDigits (k n : Nat) : (hexDigits k n).length = k := by
  induction k generalizing n with
  | zero => rfl
  | succ k ih => simp [hexDigits, ih]

theorem isPlain_hexDigits (k n : Nat) : ∀ c ∈ hexDigits k n, isPlain c = true := by
  induction k generalizing n with
  | zero => nofun
  | succ k ih =>
    simp only [hexDigits, List.forall_mem_append, List.forall_mem_singleton]
    exact ⟨ih (n / 16), isPlain_hexDigit _ (Nat.mod_lt n (by decide))⟩

/-- The first digit printed is the most significant, and further text goes on from the value read. -/
theorem readDigits_hexDigits_append (k n acc : Nat) (t : List Char) :
    readDigits 16 acc ((hexDigits k n).map lowerChar ++ t) = readDigits 16 (acc * 16 ^ k + n % 16 ^ k) t := by
  induction k generalizing n t with
  | zero => simp [hexDigits, Nat.mod_one]
  | succ k ih =>
    have hvalue : (acc * 16 ^ k + n / 16 % 16 ^ k) * 16 + n % 16 = acc * 16 ^ (k + 1) + n % 16 ^ (k + 1) := by
      rw [Nat.pow_succ', Nat.mod_mul]
      ring
    rw [hexDigits, List.map_append, List.append_assoc, ih (n / 16), List.map_singleton, List.singleton_append,
      readDigits_cons _ _ _ _ _ (digitValue_lowerChar_hexDigit _ (Nat.mod_lt n (by decide))), hvalue]

/-- The digits of a number that needs no more of them read back as the number. -/
theorem readNonempty_hexDigits (k n : Nat) (hk : 1 ≤ k) (hn : n < 16 ^ k) :
    readNonempty 16 ((hexDigits k n).map lowerChar) = some n := by
  have hne : (hexDigits k n).map lowerChar ≠ [] := by
    rw [← List.length_pos_iff, List.length_map, length_hexDigits]
    exact hk
  have hread := readDigits_hexDigits_append k n 0 []
  rw [List.append_nil, Nat.zero_mul, Nat.zero_add, Nat.mod_eq_of_lt hn] at hread
  exact (readNonempty_of_ne_nil 16 _ hne).trans hread

/-- A number as it is printed in hexadecimal. -/
def hexNumeral (k n : Nat) : List Char := '0' :: 'x' :: hexDigits k n

theorem isToken_hexNumeral (k n : Nat) : IsToken (hexNumeral k n) where
  ne_nil := nofun
  plain := by
    simp only [hexNumeral, List.forall_mem_cons]
    exact ⟨rfl, rfl, isPlain_hexDigits k n⟩

theorem readNumber_hexNumeral (k n : Nat) (hk : 1 ≤ k) (hn : n < 16 ^ k) :
    readNumber ((hexNumeral k n).map lowerChar) = some n := readNonempty_hexDigits k n hk hn

/-! ### Decimal -/

theorem mem_decimal (n : Nat) (hn : n < 256) : ∀ c ∈ decimal n, ∃ d, d < 10 ∧ c = hexDigit d := by
  unfold decimal
  split_ifs with h10 h100
  · simp only [List.forall_mem_singleton]
    exact ⟨n, h10, rfl⟩
  · simp only [List.forall_mem_cons]
    exact ⟨⟨n / 10, by omega, rfl⟩, ⟨n % 10, by omega, rfl⟩, nofun⟩
  · simp only [List.forall_mem_cons]
    exact ⟨⟨n / 100, by omega, rfl⟩, ⟨n / 10 % 10, by omega, rfl⟩, ⟨n % 10, by omega, rfl⟩, nofun⟩

theorem decimal_ne_nil (n : Nat) : decimal n ≠ [] := by
  unfold decimal
  split_ifs <;> nofun

theorem isToken_decimal (n : Nat) (hn : n < 256) : IsToken (decimal n) where
  ne_nil := decimal_ne_nil n
  plain := fun c hc => by
    obtain ⟨d, hd, rfl⟩ := mem_decimal n hn c hc
    exact isPlain_hexDigit d (by omega)

theorem map_lowerChar_decimal (n : Nat) (hn : n < 256) : (decimal n).map lowerChar = decimal n := by
  refine (List.map_congr_left fun c hc => ?_).trans (List.map_id _)
  obtain ⟨d, hd, rfl⟩ := mem_decimal n hn c hc
  exact lowerChar_decimalDigit d hd

theorem readDigits_decimal (n : Nat) (hn : n < 256) : readDigits 10 0 (decimal n) = some n := by
  have digit (acc d : Nat) (t : List Char) (hd : d < 10) :
      readDigits 10 acc (hexDigit d :: t) = readDigits 10 (acc * 10 + d) t :=
    readDigits_cons 10 acc d _ t (digitValue_decimalDigit d hd)
  unfold decimal
  split_ifs with h10 h100
  · rw [digit 0 n _ h10, readDigits]
    congr 1; omega
  · rw [digit 0 (n / 10) _ (by omega), digit _ (n % 10) _ (by omega), readDigits]
    congr 1; omega
  · rw [digit 0 (n / 100) _ (by omega), digit _ (n / 10 % 10) _ (by omega), digit _ (n % 10) _ (by omega), readDigits]
    congr 1; omega

/-- A text of decimal digits has neither of the marks `0x` and `0b`. -/
theorem readNumber_of_decimalDigits (t : List Char) (ht : ∀ c ∈ t, ∃ d, d < 10 ∧ c = hexDigit d) :
    readNumber t = readNonempty 10 t := by
  have hx : ∀ d, d < 10 → 'x' ≠ hexDigit d := by decide
  have hb : ∀ d, d < 10 → 'b' ≠ hexDigit d := by decide
  unfold readNumber
  split
  · obtain ⟨d, hd, heq⟩ := ht 'x' (by simp)
    exact absurd heq (hx d hd)
  · obtain ⟨d, hd, heq⟩ := ht 'b' (by simp)
    exact absurd heq (hb d hd)
  · rfl

theorem readNumber_decimal (n : Nat) (hn : n < 256) : readNumber (decimal n) = some n :=
  calc readNumber (decimal n) = readNonempty 10 (decimal n) := readNumber_of_decimalDigits _ (mem_decimal n hn)
    _ = readDigits 10 0 (decimal n) := readNonempty_of_ne_nil 10 _ (decimal_ne_nil n)
    _ = some n := readDigits_decimal n hn

/-! ### Operands -/

theorem readOperand_of_token (t : List Char) (n : Nat) (ht : IsToken t) (hread : readNumber t = some n) (hn : n < 256) :
    readOperand t = .ok n := by
  simp only [readOperand, ht.trimBlanks_eq, hread, if_pos hn]

theorem readOperands_cons (t : List Char) (ts : List (List Char)) (n : Nat) (ns : List Nat) (ht : readOperand t = .ok n)
    (hts : readOperands ts = .ok ns) : readOperands (t :: ts) = .ok (n :: ns) := by
  simp only [readOperands, ht, hts]

theorem readOperands_decimal (ns : List Nat) (hns : ∀ n ∈ ns, n < 256) : readOperands (ns.map decimal) = .ok ns := by
  induction ns with
  | nil => rfl
  | cons n ns ih =>
    obtain ⟨hn, hns⟩ := List.forall_mem_cons.1 hns
    exact readOperands_cons _ _ n ns
      (readOperand_of_token _ n (isToken_decimal n hn) (readNumber_decimal n hn) hn) (ih hns)

/-! ### A printed instruction -/

/-- The name of an operation in the language (R53). -/
def mnemonic : Op → List Char
  | .scale => ['s', 'c', 'a', 'l', 'e']
  | .xlate => ['x', 'l', 'a', 't', 'e']
  | .rdscr => ['r', 'd', 's', 'c', 'r']
  | .rdwire => ['r', 'd', 'w', 'i', 'r', 'e']
  | .rdlen => ['r', 'd', 'l', 'e', 'n']
  | .rdcap => ['r', 'd', 'c', 'a', 'p']

/-- The operands of an instruction as numbers. -/
def operandValues : Instr → List Nat
  | .scale g f => [g.toNat, f]
  | .xlate rs re cs ce => [rs, re, cs, ce]
  | .rdscr i => [i]
  | .rdwire k => [k]
  | .rdlen => []
  | .rdcap => []

/-- The operands of an instruction as printed: SCALE's `g` in hexadecimal, every other in decimal (R55). -/
def operandTexts : Instr → List (List Char)
  | .scale g f => [hexNumeral 2 g.toNat, decimal f]
  | i => (operandValues i).map decimal

theorem showInstr_eq_printedLine (i : Instr) : showInstr i = printedLine (mnemonic i.op) (operandTexts i) := by
  cases i with
  | _ => rfl

theorem isToken_mnemonic (op : Op) : IsToken (mnemonic op) := by
  cases op with
  | _ => exact ⟨nofun, List.all_eq_true.1 rfl⟩

theorem map_lowerChar_mnemonic (op : Op) : (mnemonic op).map lowerChar = mnemonic op := by
  cases op with
  | _ => rfl

theorem mnemonic_ne_req (op : Op) : mnemonic op ≠ ['.', 'r', 'e', 'q'] := by
  cases op with
  | _ => decide

theorem operandValues_lt (i : Instr) (h : i.wf = true) : ∀ n ∈ operandValues i, n < 256 := by
  cases i with
  | scale g f => simpa [operandValues] using ⟨g.isLt, (fieldOk_iff f).1 h⟩
  | xlate rs re cs ce => simpa [operandValues, Instr.wf, fieldOk_iff, and_assoc] using h
  | rdscr i => simpa [operandValues] using (fieldOk_iff i).1 h
  | rdwire k => simpa [operandValues] using (fieldOk_iff k).1 h
  | rdlen => nofun
  | rdcap => nofun

theorem isToken_decimals (ns : List Nat) (hns : ∀ n ∈ ns, n < 256) : ∀ t ∈ ns.map decimal, IsToken t :=
  List.forall_mem_map.2 fun n hn => isToken_decimal n (hns n hn)

theorem readOperands_lower_decimal (ns : List Nat) (hns : ∀ n ∈ ns, n < 256) :
    readOperands ((ns.map decimal).map (List.map lowerChar)) = .ok ns := by
  have hlower : (ns.map decimal).map (List.map lowerChar) = ns.map decimal := by
    rw [List.map_map]
    exact List.map_congr_left fun n hn => map_lowerChar_decimal n (hns n hn)
  rw [hlower, readOperands_decimal ns hns]

theorem isToken_operandTexts (i : Instr) (h : i.wf = true) : ∀ t ∈ operandTexts i, IsToken t := by
  have hlt := operandValues_lt i h
  cases i with
  | scale g f =>
    exact List.forall_mem_cons.2 ⟨isToken_hexNumeral 2 _, isToken_decimals [f] (List.forall_mem_cons.1 hlt).2⟩
  | _ => exact isToken_decimals _ hlt

theorem readOperands_operandTexts (i : Instr) (h : i.wf = true) :
    readOperands ((operandTexts i).map (List.map lowerChar)) = .ok (operandValues i) := by
  have hlt := operandValues_lt i h
  cases i with
  | scale g f =>
    exact readOperands_cons _ _ _ _
      (readOperand_of_token _ _ (isToken_hexNumeral 2 _).lower (readNumber_hexNumeral 2 _ (by decide) g.isLt) g.isLt)
      (readOperands_lower_decimal [f] (List.forall_mem_cons.1 hlt).2)
  | _ => exact readOperands_lower_decimal _ hlt

theorem stmtOf_mnemonic (i : Instr) : stmtOf (mnemonic i.op) (operandValues i) = .ok (.op i) := by
  cases i with
  | scale g f => simp [stmtOf, Instr.op, mnemonic, operandValues]
  | _ => rfl

theorem parseLine_showInstr (i : Instr) (h : i.wf = true) : parseLine (showInstr i) = .ok (some (.op i)) := by
  have htexts := isToken_operandTexts i h
  refine parseLine_of_operands _ (mnemonic i.op) _ (operandValues i) _ ?_ (isToken_mnemonic i.op)
    (isToken_lower_all _ htexts) (mnemonic_ne_req i.op) (readOperands_operandTexts i h) (stmtOf_mnemonic i)
  rw [showInstr_eq_printedLine, lineText_printedLine _ _ (isToken_mnemonic i.op) htexts, map_lowerChar_mnemonic]

/-- The text of a well-formed instruction assembles to its word. -/
theorem assembleLine_showInstr (i : Instr) (h : i.wf = true) : assembleLine (showInstr i) = .ok [encode i] := by
  have hwords : Stmt.words (.op i) = .ok [encode i] := Stmt.words_of_wf (.op i) [i] rfl (by simp [h])
  simp only [assembleLine, parseLine_showInstr i h, hwords]

/-! ### A printed `.req` -/

theorem readReq_hexNumeral (w : Word40) : readReq ((hexNumeral 10 w.toNat).map lowerChar) = .ok (.req w) := by
  have hlen : ((hexDigits 10 w.toNat).map lowerChar).length = 10 := by rw [List.length_map, length_hexDigits]
  have hread := readNonempty_hexDigits 10 w.toNat (by decide) w.isLt
  change readReq ('0' :: 'x' :: (hexDigits 10 w.toNat).map lowerChar) = _
  simp only [readReq, hlen, hread, if_true, BitVec.ofNat_toNat, BitVec.setWidth_eq]

/-- The text `.req` with the ten digits of a word assembles to the word, whether it is legal or not. -/
theorem assembleLine_req (w : Word40) :
    assembleLine (['.', 'r', 'e', 'q', ' '] ++ hexNumeral 10 w.toNat) = .ok [w] := by
  have hname : IsToken ['.', 'r', 'e', 'q'] := ⟨nofun, List.all_eq_true.1 rfl⟩
  have hnum := isToken_hexNumeral 10 w.toNat
  have hparse := parseLine_of_req _ _ _ (lineText_printedLine ['.', 'r', 'e', 'q'] [hexNumeral 10 w.toNat] hname
    (by simpa using hnum)) hnum.lower (readReq_hexNumeral w)
  change assembleLine (printedLine ['.', 'r', 'e', 'q'] [hexNumeral 10 w.toNat]) = _
  simp only [assembleLine, hparse, Stmt.words]

/-! ### The disassembler (R55) -/

theorem disassemble_of_decode (w : Word40) (i : Instr) (h : decode w = .ok i) :
    disassemble w = ⟨showInstr i, false⟩ := by
  simp only [disassemble, h]

theorem disassemble_of_illegal (w : Word40) (e : Illegal) (h : decode w = .error e) :
    disassemble w = ⟨['.', 'r', 'e', 'q', ' '] ++ hexNumeral 10 w.toNat, true⟩ := by
  simp only [disassemble, h]
  rfl

/-- Settles O45: a legal word is the encoding of the instruction it is printed as; an illegal word is printed digit by
digit. -/
theorem assemblingTheDisassemblyGivesTheWord : Obligations.AssemblingTheDisassemblyGivesTheWord := by
  intro w
  cases hd : decode w with
  | ok i =>
    obtain ⟨hwf, hw⟩ := legalWordIsTheEncodingOfItsInstruction w i hd
    rw [disassemble_of_decode w i hd, ← hw]
    exact ⟨assembleLine_showInstr i hwf, by simp⟩
  | error e =>
    rw [disassemble_of_illegal w e hd]
    exact ⟨assembleLine_req w, by simp⟩

end Sys2Proof.Machine

/-! The Scaler (41_scaler.md): the checks and the effect of SCALE, and the magnified column read pixel by pixel. Source bit
`k` is a run of `f` equal pixels; this one fact gives the bit count and the source's sequential walk, which writes the
pixels of a buffer one at a time, from the last to the first. -/

namespace Sys2Proof.Machine

/-! ### The checks of SCALE and what it leaves (R58 to R62, R69) -/

/-- The word `{0x01, g, f, 0, 0}` decodes to its SCALE (R43). -/
theorem decode_scaleWord (g f : Byte) : decode (packWord 0x01 g f 0x00 0x00) = .ok (.scale g f.toNat) := by
  have h := decodeOfEncodeIsTheInstruction (.scale g f.toNat) (fieldOk_toNat f)
  rwa [encode, BitVec.ofNat_toNat, BitVec.setWidth_eq] at h

/-- A word with the operation code of SCALE and a reserved field that is not zero selects no row (R48). -/
theorem not_selects_scaleWord (g f c d : Byte) (hcd : c ≠ 0 ∨ d ≠ 0) (op : Op) :
    op.selects (packWord 0x01 g f c d) = false := by
  refine Bool.eq_false_of_not_eq_true fun hop => ?_
  obtain ⟨hopc, hzero⟩ := (selects_packWord op 0x01 g f c d).1 hop
  obtain rfl : op = .scale := opcode_inj op .scale hopc.symm
  obtain ⟨rfl, rfl⟩ := hzero
  simp at hcd

theorem factorError_zero (c : Config) : factorError c 0 = some .invalidFactor := rfl

theorem factorError_above (c : Config) (f : Nat) (h : c.cap < f) : factorError c f = some .capacityExceeded := by
  rw [factorError, if_neg (Nat.ne_zero_of_lt h), if_pos h]

theorem factorError_ne_ok (c : Config) (f : Nat) : factorError c f ≠ some .ok := by
  unfold factorError
  split_ifs <;> nofun

/-- Above its column an accepted SCALE leaves zeros (R62). -/
theorem read_scaleResult_above (g : Byte) (f : Nat) (s : State) (a : Nat) (ha : f ≤ a) :
    Memory.read (scaleResult g f s).scr a = 0 :=
  (Memory.read_fill f (scaledByte g f) a).trans (if_neg (Nat.not_lt.2 ha))

/-- Settles O11: the word is illegal or decodes to its SCALE, whose factor is refused or leaves `scaleResult`. -/
theorem scaleChecksClearsAndWritesTheColumn : Obligations.ScaleChecksClearsAndWritesTheColumn := by
  intro s g f c d
  refine ⟨fun hcd => runWord_of_not_selects _ s (not_selects_scaleWord g f c d hcd),
    runWord_of_decode _ _ s (decode_scaleWord g f), ?_, fun hcap => ?_, fun h0 hcap => ?_⟩
  · rintro rfl
    exact execScale_refused g 0 s _ (factorError_zero s.cfg)
  · exact execScale_refused g f.toNat s _ (factorError_above s.cfg f.toNat hcap)
  · have h1 : 1 ≤ f.toNat := Nat.pos_of_ne_zero fun h => h0 (BitVec.eq_of_toNat_eq h)
    refine ⟨scaleResult g f.toNat s, execScale_accepted g f.toNat s h1 hcap, fun a b ha hb => ?_, fun a ha _ => ?_,
      rfl, ?_, rfl, rfl, rfl, fun hinv a ha => ?_⟩
    · rw [read_scaleResult g f.toNat s a ha, getLsbD_scaledByte g f.toNat a b hb]
    · exact read_scaleResult_above g f.toNat s a ha
    · have hdata : zext32 f.toNat = f.zeroExtend 32 := BitVec.ofNat_toNat 32 f
      exact congrArg (fun v => s.responses ++ [⟨.ok, v⟩]) hdata
    · obtain ⟨-, -, -, hrange, -⟩ := hinv
      rw [read_scaleResult_above g f.toNat s a (hcap.trans ha), Memory.read_of_inRange s.scr s.cfg.cap a hrange ha]

/-- Settles O19: the factor is checked against `CAP`, and the column that is left is that of the request alone. -/
theorem scaleIgnoresTheOldScratch : Obligations.ScaleIgnoresTheOldScratch := by
  intro s s' g f hcfg
  cases hf : factorError s.cfg f with
  | none =>
    obtain ⟨h1, h2⟩ := (factorError_accepted s.cfg f).1 hf
    exact ⟨_, _, ⟨.ok, zext32 f⟩, execScale_accepted g f s h1 h2, execScale_accepted g f s' h1 (hcfg ▸ h2),
      rfl, rfl, fun _ => ⟨rfl, rfl⟩⟩
  | some e =>
    have he : e ≠ .ok := fun h => factorError_ne_ok s.cfg f (h ▸ hf)
    exact ⟨_, _, ⟨e, 0⟩, execScale_refused g f s e hf, execScale_refused g f s' e (hcfg ▸ hf),
      rfl, rfl, fun hok => absurd hok he⟩

/-! ### The pixels of the column (R56, R57, R67) -/

theorem getElem?_scaleColumn (g : Byte) (f i : Nat) (hi : i < f) :
    (scaleColumn g f)[i]? = some (scaledByte g f i) := by
  simp [scaleColumn, hi]

/-- Settles O12: byte `i` is `scaledByte g f i`, read bit by bit or as a part of `V`. -/
theorem scaleIsThePixelMap : Obligations.ScaleIsThePixelMap := by
  refine fun g f _ => ⟨length_scaleColumn g f, fun i b hi hb => ?_, fun V hV i hi => ?_⟩
  · exact ⟨_, getElem?_scaleColumn g f i hi, getLsbD_scaledByte g f i b hb⟩
  · rw [getElem?_scaleColumn g f i hi, scaledByte_eq_extractLsb' g f i V hV hi]

/-- Settles O17: `y div f` is monotone, and is `k` exactly on the run of source pixel `k`. -/
theorem sourcePixelsBecomeRunsInOrder : Obligations.SourcePixelsBecomeRunsInOrder := by
  refine fun g f hf => ⟨fun y y' hlt _ => Nat.div_le_div_right hlt.le, fun k y _ => Nat.div_eq_iff hf,
    fun k y hk hlo hhi => ⟨Nat.div_le_div_right hlo, Nat.div_le_div_right hhi, ?_⟩⟩
  have hrun : k * f ≤ 7 * f := Nat.mul_le_mul_right f (by omega)
  refine ⟨_, getElem?_scaleColumn g f (y / 8) (by omega), ?_⟩
  rw [getLsbD_scaledByte_pixel, (Nat.div_eq_iff hf).2 ⟨hlo, hhi⟩]

/-! ### Uniform columns, and the factor 1 (R63, R64, R66) -/

/-- A byte whose bits are all equal is every byte of its magnified column. -/
theorem scaleColumn_uniform (g : Byte) (v : Bool) (f : Nat) (hg : ∀ k, k < 8 → g.getLsbD k = v) :
    scaleColumn g f = List.replicate f g := by
  refine List.eq_replicate_iff.2 ⟨length_scaleColumn g f, fun byte hbyte => ?_⟩
  obtain ⟨i, hi, rfl⟩ := List.mem_map.1 hbyte
  have hi : i < f := List.mem_range.1 hi
  apply BitVec.eq_of_getLsbD_eq
  intro b hb
  calc (scaledByte g f i).getLsbD b = g.getLsbD ((8 * i + b) / f) := getLsbD_scaledByte g f i b hb
    _ = v := hg _ (Nat.div_lt_of_lt_mul (by omega))
    _ = g.getLsbD b := (hg b hb).symm

/-- Settles O16: both columns are uniform. -/
theorem zeroAndFullColumnsStayUniform : Obligations.ZeroAndFullColumnsStayUniform :=
  fun f _ => ⟨scaleColumn_uniform 0x00 false f (by decide), scaleColumn_uniform 0xFF true f (by decide)⟩

theorem scaledByte_one (g : Byte) : scaledByte g 1 0 = g := by
  apply BitVec.eq_of_getLsbD_eq
  intro b hb
  rw [getLsbD_scaledByte g 1 0 b hb, Nat.mul_zero, Nat.zero_add, Nat.div_one]

/-- Settles O15: the one byte of the column is `g`, and an accepted SCALE leaves the column. -/
theorem factorOneIsIdentity : Obligations.FactorOneIsIdentity := by
  refine fun g => ⟨congrArg (fun byte => [byte]) (scaledByte_one g), fun s hcap => ?_⟩
  exact ⟨_, execScale_accepted g 1 s le_rfl hcap, (read_scaleResult g 1 s 0 (by decide)).trans (scaledByte_one g), rfl⟩

/-! ### Source bit `k` is a run of `f` equal pixels: the bit count (R65) -/

/-- The pixels in order are the source bits in order, each replicated `f` times. -/
theorem map_div_range_mul (bit : Nat → Bool) (m f : Nat) (hf : 1 ≤ f) :
    (List.range (m * f)).map (fun y => bit (y / f)) = (List.range m).flatMap fun k => List.replicate f (bit k) := by
  induction m with
  | zero => simp
  | succ m ih =>
    have hrun : (List.range f).map (fun j => bit ((m * f + j) / f)) = List.replicate f (bit m) := by
      refine List.eq_replicate_iff.2 ⟨by simp, fun v hv => ?_⟩
      obtain ⟨j, hj, rfl⟩ := List.mem_map.1 hv
      have hj : j < f := List.mem_range.1 hj
      rw [(Nat.div_eq_iff hf).2 ⟨Nat.le_add_right _ _, by omega⟩]
    rw [Nat.succ_mul, List.range_add, List.map_append, ih, List.map_map, List.range_succ, List.flatMap_append,
      List.flatMap_singleton, ← hrun]
    rfl

theorem countP_flatMap_replicate (bit : Nat → Bool) (f : Nat) (ks : List Nat) :
    (ks.flatMap fun k => List.replicate f (bit k)).countP id = ks.countP bit * f := by
  induction ks with
  | nil => simp
  | cons k ks ih =>
    rw [List.flatMap_cons, List.countP_append, ih, List.countP_replicate, List.countP_cons, Nat.add_mul, Nat.add_comm]
    cases bit k with
    | _ => simp

/-- The 1 bits of a scaled byte are the 1 pixels among its eight. -/
theorem popcount_scaledByte (g : Byte) (f i : Nat) :
    popcount (scaledByte g f i) = (List.range 8).countP fun b => magnifiedPixel g f (8 * i + b) :=
  List.countP_congr fun b hb => by rw [getLsbD_scaledByte g f i b (List.mem_range.1 hb), magnifiedPixel]

/-- The 1 bits of the first `n` bytes are the 1 pixels among the first `8n`. -/
theorem popcountAll_map_scaledByte (g : Byte) (f n : Nat) :
    popcountAll ((List.range n).map (scaledByte g f)) = (List.range (8 * n)).countP (magnifiedPixel g f) := by
  induction n with
  | zero => rfl
  | succ n ih =>
    rw [popcountAll] at ih ⊢
    rw [List.range_succ, List.map_append, List.map_append, List.sum_append, ih, Nat.mul_succ, List.range_add,
      List.countP_append, List.countP_map]
    exact congrArg _ (popcount_scaledByte g f n)

/-- Settles O14: the 1 pixels are those of the runs of the 1 bits, each of length `f`. -/
theorem scalingMultipliesTheBitCount : Obligations.ScalingMultipliesTheBitCount := by
  intro g f hf
  calc popcountAll (scaleColumn g f)
      = (List.range (8 * f)).countP (magnifiedPixel g f) := popcountAll_map_scaledByte g f f
    _ = ((List.range (8 * f)).map (magnifiedPixel g f)).countP id := by rw [List.countP_map, Function.id_comp]
    _ = ((List.range 8).flatMap fun k => List.replicate f (g.getLsbD k)).countP id :=
        congrArg _ (map_div_range_mul g.getLsbD 8 f hf)
    _ = popcount g * f := countP_flatMap_replicate g.getLsbD f (List.range 8)

/-! ### The sequential walk (R68) -/

/-- The stream of the walk is the pixels from the last to the first. -/
theorem walkStream_eq_reverse_pixels (g : Byte) (f : Nat) (hf : 1 ≤ f) :
    walkStream g f = ((List.range (8 * f)).map (magnifiedPixel g f)).reverse := by
  have hpixels := map_div_range_mul g.getLsbD 8 f hf
  calc walkStream g f = ((List.range 8).flatMap fun k => List.replicate f (g.getLsbD k)).reverse := by
        simp [walkStream, List.reverse_flatMap, Function.comp_def]
    _ = ((List.range (8 * f)).map (magnifiedPixel g f)).reverse := congrArg List.reverse hpixels.symm

/-- Pixel `y` of a buffer: bit `y mod 8` of byte `y div 8` (R27). -/
def pixelAt (bs : List Byte) (y : Nat) : Bool := (bs.getD (y / 8) 0).getLsbD (y % 8)

theorem pixelAt_scaleColumn (g : Byte) (f y : Nat) (hy : y < 8 * f) :
    pixelAt (scaleColumn g f) y = magnifiedPixel g f y := by
  rw [pixelAt, List.getD_eq_getElem?_getD, getElem?_scaleColumn g f (y / 8) (by omega), Option.getD_some,
    getLsbD_scaledByte_pixel, magnifiedPixel]

/-- Buffers of one length with the same pixels are equal. -/
theorem eq_of_pixelAt_eq (bs cs : List Byte) (hlen : bs.length = cs.length)
    (h : ∀ y, y < 8 * cs.length → pixelAt bs y = pixelAt cs y) : bs = cs := by
  refine List.ext_getElem hlen fun i hi hi' => BitVec.eq_of_getLsbD_eq fun b hb => ?_
  have hy := h (8 * i + b) (by omega)
  have hdiv : (8 * i + b) / 8 = i := by omega
  have hmod : (8 * i + b) % 8 = b := by omega
  rwa [pixelAt, pixelAt, hdiv, hmod, List.getD_eq_getElem _ _ hi, List.getD_eq_getElem _ _ hi'] at hy

theorem getLsbD_setBit (b : Byte) (i j : Nat) (v : Bool) (hj : j < 8) :
    (setBit b i v).getLsbD j = if j = i then v else b.getLsbD j := by
  rw [setBit, getLsbD_byteOfBits, decide_eq_true hj, Bool.true_and]

theorem length_walkWrite (n : Nat) (bs : List Byte) (v : Bool) : (walkWrite (n, bs) v).2.length = bs.length :=
  List.length_modify _ _ _

/-- A write of the walk sets the pixel at the cursor, and no other. -/
theorem pixelAt_walkWrite (n y : Nat) (bs : List Byte) (v : Bool) (hy : y < 8 * bs.length) :
    pixelAt (walkWrite (n, bs) v).2 y = if y = n then v else pixelAt bs y := by
  have hbyte : y / 8 < bs.length := by omega
  have hmod : y % 8 < 8 := Nat.mod_lt y (by decide)
  simp only [pixelAt, walkWrite, List.getD_eq_getElem?_getD, List.getElem?_modify, List.getElem?_eq_getElem hbyte,
    Option.map_eq_map, Option.map_some, Option.getD_some]
  by_cases hdiv : n / 8 = y / 8
  · rw [if_pos hdiv, getLsbD_setBit _ _ _ _ hmod]
    exact if_congr (by omega) rfl rfl
  · rw [if_neg hdiv, if_neg (by rintro rfl; exact hdiv rfl)]

/-- The walk over the pixels `n-1` down to `0`, with the cursor at `n-1`, sets each of them and leaves those above. -/
theorem walk_sets_pixels (pixel : Nat → Bool) (n : Nat) (bs : List Byte) :
    (((List.range n).map pixel).reverse.foldl walkWrite (n - 1, bs)).2.length = bs.length ∧
    ∀ y, y < 8 * bs.length →
      pixelAt (((List.range n).map pixel).reverse.foldl walkWrite (n - 1, bs)).2 y =
        if y < n then pixel y else pixelAt bs y := by
  induction n generalizing bs with
  | zero => simp
  | succ n ih =>
    have hstep : ((List.range (n + 1)).map pixel).reverse.foldl walkWrite (n + 1 - 1, bs) =
        ((List.range n).map pixel).reverse.foldl walkWrite (n - 1, (walkWrite (n, bs) (pixel n)).2) := by
      simp [List.range_succ, walkWrite]
    obtain ⟨hlen, hpixels⟩ := ih (walkWrite (n, bs) (pixel n)).2
    rw [length_walkWrite] at hlen hpixels
    rw [hstep]
    refine ⟨hlen, fun y hy => ?_⟩
    rw [hpixels y hy, pixelAt_walkWrite n y bs _ hy]
    obtain hlt | rfl | hgt := Nat.lt_trichotomy y n
    · rw [if_pos hlt, if_pos (by omega)]
    · simp
    · rw [if_neg (by omega), if_neg (by omega), if_neg (by omega)]

/-- Settles O18: the walk sets every pixel of its buffer to that of the column. -/
theorem sequentialWalkComputesTheSameBytes : Obligations.SequentialWalkComputesTheSameBytes := by
  intro g f hf
  obtain ⟨hlen, hpixels⟩ := walk_sets_pixels (magnifiedPixel g f) (8 * f) (List.replicate f 0)
  rw [List.length_replicate] at hlen hpixels
  rw [walkColumn, walkStream_eq_reverse_pixels g f hf]
  refine eq_of_pixelAt_eq _ _ (hlen.trans (length_scaleColumn g f).symm) fun y hy => ?_
  rw [length_scaleColumn] at hy
  rw [hpixels y hy, if_pos hy, pixelAt_scaleColumn g f y hy]

end Sys2Proof.Machine

/-! The AddressTranslator (42_address_translator.md): what XLATE answers and leaves, the window it answers read field by
field, and the rectangles of a glyph (44_glyph_composition.md R86, R89) against its bounds. -/

namespace Sys2Proof.Machine

/-! ### The answer of XLATE (R70 to R72, R74, R79) -/

theorem decode_xlateWord (rs re cs ce : Byte) :
    decode (packWord 0x02 rs re cs ce) = .ok (.xlate rs.toNat re.toNat cs.toNat ce.toNat) := by
  have hrow : Op.xlate.selects (packWord 0x02 rs re cs ce) = true := (selects_packWord _ _ _ _ _ _).2 ⟨rfl, trivial⟩
  rw [decode_of_selects .xlate _ hrow]
  simp only [Op.operands, packWord_fields]

/-- A packed `DATA` as a number: four digits in base 256, the first-named most significant. -/
theorem packData_toNat_eq_digits (a b c d : Nat) (ha : a < 256) (hb : b < 256) (hc : c < 256) (hd : d < 256) :
    (packData a b c d).toNat = a * 2 ^ 24 + b * 2 ^ 16 + c * 2 ^ 8 + d := by
  have hlt : (packData a b c d).toNat < 2 ^ 32 := (packData a b c d).isLt
  have hfields := packData_toNat a b c d ha hb hc hd
  simp only [BitVec.extractLsb'_toNat, Nat.shiftRight_eq_div_pow] at hfields
  omega

/-- Settles O20: the word selects the row of XLATE whatever its fields are, and a rectangle is in bounds or it is not. -/
theorem xlateTranslatesOrRefuses : Obligations.XlateTranslatesOrRefuses := by
  intro s rs re cs ce
  have hbounds := CursorRect.inBounds_iff ⟨rs.toNat, re.toNat, cs.toNat, ce.toNat⟩
  refine ⟨runWord_of_decode _ _ s (decode_xlateWord rs re cs ce), fun hin => ?_, fun hout => ?_⟩
  · exact ⟨_, execXlate_accepted _ _ _ _ s (hbounds.2 hin),
      packData_toNat_eq_digits _ _ _ _ cs.isLt ce.isLt (by omega) (by omega)⟩
  · exact execXlate_refused _ _ _ _ s (mt hbounds.1 hout)

/-- Settles O24: whether a rectangle is accepted, and with what window, is read off the rectangle alone. -/
theorem xlateReadsAndWritesNoState : Obligations.XlateReadsAndWritesNoState := by
  intro s s' rs re cs ce
  by_cases hb : CursorRect.inBounds ⟨rs, re, cs, ce⟩ = true
  · exact ⟨_, execXlate_accepted rs re cs ce s hb, execXlate_accepted rs re cs ce s' hb⟩
  · exact ⟨_, execXlate_refused rs re cs ce s hb, execXlate_refused rs re cs ce s' hb⟩

/-! ### The window of an accepted rectangle (R72 to R78) -/

/-- An accepted rectangle is answered OK, and the fields of the data are the columns as given and the pages mirrored. -/
theorem exec_xlate_answers_window (s : State) (rs re cs ce : Nat) (hrow : rs ≤ re) (hre : re ≤ 7) (hcol : cs ≤ ce)
    (hce : ce ≤ 127) :
    ∃ t d, exec (.xlate rs re cs ce) s = .next t ∧ t.responses = s.responses ++ [⟨.ok, d⟩] ∧
      (d.extractLsb' 24 8).toNat = cs ∧ (d.extractLsb' 16 8).toNat = ce ∧
      (d.extractLsb' 8 8).toNat = 7 - re ∧ (d.extractLsb' 0 8).toNat = 7 - rs :=
  have hb := (CursorRect.inBounds_iff ⟨rs, re, cs, ce⟩).2 ⟨hrow, hre, hcol, hce⟩
  ⟨_, _, execXlate_accepted rs re cs ce s hb, rfl,
    packData_toNat cs ce (7 - re) (7 - rs) (by omega) (by omega) (by omega) (by omega)⟩

/-- Settles O21: mirroring swaps the ends of the rows and keeps their distance. -/
theorem acceptedWindowIsInsideTheDisplay : Obligations.AcceptedWindowIsInsideTheDisplay := by
  intro s rs re cs ce hrow hre hcol hce
  obtain ⟨t, d, hexec, hresp, hcs', hce', hps, hpe⟩ := exec_xlate_answers_window s rs re cs ce hrow hre hcol hce
  refine ⟨t, d, hexec, hresp, ?_⟩
  rw [hcs', hce', hps, hpe]
  omega

/-- Settles O22: mirroring turns the order of the rows around, and the columns pass through. -/
theorem windowSelectsExactlyTheRectangle : Obligations.WindowSelectsExactlyTheRectangle := by
  intro s rs re cs ce hrow hre hcol hce
  obtain ⟨t, d, hexec, hresp, hcs', hce', hps, hpe⟩ := exec_xlate_answers_window s rs re cs ce hrow hre hcol hce
  refine ⟨t, d, hexec, hresp, ?_⟩
  rw [hcs', hce', hps, hpe]
  exact ⟨fun row hle => by omega, fun col => Iff.rfl⟩

theorem logicalRowToNativePage_eq (r : Nat) : logicalRowToNativePage r = 7 - r := rfl

theorem toNativeWindow_of_inBounds (r : CursorRect) (h : r.inBounds = true) :
    toNativeWindow r = some (nativeWindow r) := if_pos h

/-- Settles O23: a single row is in bounds, and both ends of its pages are its mirror image. -/
theorem rowTransformMirrorsAndIsItsOwnInverse : Obligations.RowTransformMirrorsAndIsItsOwnInverse := by
  refine ⟨fun r cs ce hr hcol hce => ?_, fun r hr => ⟨logicalRowToNativePage_eq r, ?_⟩⟩
  · exact toNativeWindow_of_inBounds ⟨r, r, cs, ce⟩ ((CursorRect.inBounds_iff _).2 ⟨le_rfl, hr, hcol, hce⟩)
  · rw [logicalRowToNativePage_eq, logicalRowToNativePage_eq, Nat.sub_sub_self hr]

/-! ### The windows of a glyph (R85, R86, R89) -/

theorem glyphFits_iff (f r c : Nat) : glyphFits f r c = true ↔ r + f - 1 ≤ 7 ∧ c + 8 * f - 1 ≤ 127 := decide_eq_true_iff

/-- The ends of the rectangle of a source byte are in order, so only its last row and column can be out of bounds. -/
theorem glyphRect_inBounds_iff (f r c j : Nat) (hf : 1 ≤ f) :
    (glyphRect f r c j).inBounds = true ↔ r + f - 1 ≤ 7 ∧ c + j * f + f - 1 ≤ 127 := by
  simp only [CursorRect.inBounds_iff, glyphRect]
  omega

/-- Settles O47: the last of the eight rectangles, `j = 7`, ends where the glyph ends, and the others end before it. -/
theorem glyphFitsIffEveryWindowIsAccepted : Obligations.GlyphFitsIffEveryWindowIsAccepted := by
  intro f r c hf
  simp only [glyphFits_iff, glyphRect_inBounds_iff f r c _ hf]
  constructor
  · rintro ⟨hrow, hcol⟩ j hj
    have hjf : j * f ≤ 7 * f := Nat.mul_le_mul_right f hj
    omega
  · intro hall
    have hlast := hall 7 le_rfl
    omega

end Sys2Proof.Machine

/-! Scratch readback (43_scratch_readback.md): the words of the four reads and how the assembler writes them, what each
answers, and a full readout. A read leaves all that a read can see, so in a run of reads each is answered as it would be in
the start state. -/

namespace Sys2Proof.Machine

/-! ### The words of the reads (R80 to R83) -/

/-- A word with an assigned operation code is illegal if a field its row reserves is not zero (R49). -/
theorem runWord_of_reserved (op : Op) (a b c d : Byte) (s : State)
    (h : ¬ op.reservedZero (packWord op.opcode a b c d)) :
    runWord (packWord op.opcode a b c d) s = .next (s.deliver ⟨.illegalOperation, 0⟩) := by
  refine runWord_of_not_selects _ s fun op' => Bool.eq_false_of_not_eq_true fun hop' => ?_
  obtain ⟨hopc, hzero⟩ := (selects_iff_fields op' _).1 hop'
  rw [(packWord_fields _ _ _ _ _).1] at hopc
  obtain rfl := opcode_inj op op' hopc
  exact h hzero

/-- The word of a well-formed instruction runs it. -/
theorem runWord_encode (i : Instr) (s : State) (hwf : i.wf = true) : runWord (encode i) s = exec i s :=
  runWord_of_decode _ i s (decodeOfEncodeIsTheInstruction i hwf)

theorem encode_rdscr_toNat (i : Byte) : encode (.rdscr i.toNat) = packWord 0x03 i 0x00 0x00 0x00 := by
  rw [encode, BitVec.ofNat_toNat, BitVec.setWidth_eq]

theorem encode_rdwire_toNat (k : Byte) : encode (.rdwire k.toNat) = packWord 0x04 k 0x00 0x00 0x00 := by
  rw [encode, BitVec.ofNat_toNat, BitVec.setWidth_eq]

/-- Settles O25: an index is refused at `SLEN`, and below it names a byte of the scratch space. -/
theorem rdscrReadsAValidByte : Obligations.RdscrReadsAValidByte := by
  intro s i b c d
  have hwf : (Instr.rdscr i.toNat).wf = true := fieldOk_toNat i
  have hrun := runWord_encode _ s hwf
  have hasm := assembleLine_showInstr _ hwf
  rw [encode_rdscr_toNat] at hrun hasm
  refine ⟨fun hres => runWord_of_reserved .rdscr i b c d s ?_, hrun, hasm, execRdscr_refused s i.toNat,
    fun hcap hi => ⟨_, execRdscr_valid s i.toNat hi hcap, zextByte_toNat _⟩⟩
  simpa only [Op.reservedZero, packWord_fields, not_and_or] using hres

/-- Settles O26: an index is refused at `SLEN`, and below it is counted down from `SLEN - 1`. -/
theorem rdwireReadsInReverseOrder : Obligations.RdwireReadsInReverseOrder := by
  intro s k b c d
  have hwf : (Instr.rdwire k.toNat).wf = true := fieldOk_toNat k
  have hrun := runWord_encode _ s hwf
  have hasm := assembleLine_showInstr _ hwf
  rw [encode_rdwire_toNat] at hrun hasm
  refine ⟨fun hres => runWord_of_reserved .rdwire k b c d s ?_, hrun, hasm, execRdwire_refused s k.toNat,
    fun hcap hk => ⟨_, execRdwire_valid s k.toNat hk hcap, zextByte_toNat _⟩⟩
  simpa only [Op.reservedZero, packWord_fields, not_and_or] using hres

theorem State.Inv.slen_le_eight {s : State} (hs : s.Inv) : s.slen ≤ 8 := hs.slen_le.trans hs.valid.2

/-- Settles O27: `SLEN` is at most `CAP`, so it fits the data. -/
theorem rdlenAnswersTheValidLength : Obligations.RdlenAnswersTheValidLength := by
  intro s a b c d
  refine ⟨fun hres => runWord_of_reserved .rdlen a b c d s ?_, runWord_encode .rdlen s rfl,
    assembleLine_showInstr .rdlen rfl, zext32 s.slen, rfl, fun hs => ?_⟩
  · simpa only [Op.reservedZero, packWord_fields, not_and_or] using hres
  · have hlen := hs.slen_le_eight
    exact zext32_toNat s.slen (by omega)

/-- Settles O28: a legal `CAP` is at most 8, so it fits the data. -/
theorem rdcapAnswersTheCapacity : Obligations.RdcapAnswersTheCapacity := by
  intro s a b c d
  refine ⟨fun hres => runWord_of_reserved .rdcap a b c d s ?_, runWord_encode .rdcap s rfl,
    assembleLine_showInstr .rdcap rfl, zext32 s.cfg.cap, rfl, fun hvalid => ?_⟩
  · simpa only [Op.reservedZero, packWord_fields, not_and_or] using hres
  · have hcap : s.cfg.cap ≤ 8 := hvalid.2
    exact zext32_toNat s.cfg.cap (by omega)

/-! ### A run of reads (R84) -/

/-- A response delivered is nothing a request can read. -/
theorem State.sameVisible_deliver (s : State) (r : Response) : s.SameVisible (s.deliver r) :=
  ⟨rfl, rfl, fun _ _ => rfl⟩

/-- A well-formed instruction other than SCALE that the state answers with `r`, nothing else being changed. -/
structure State.Answers (s : State) (i : Instr) (r : Response) : Prop where
  wf : i.wf = true
  ne_scale : ∀ g f, i ≠ .scale g f
  exec_eq : exec i s = .next (s.deliver r)

/-- An answer is the same in every state with the same visible part. -/
theorem State.Answers.of_sameVisible {s u : State} {i : Instr} {r : Response} (h : s.Answers i r)
    (hv : s.SameVisible u) : u.Answers i r := by
  obtain ⟨r', hr, hsame⟩ := exec_answers_sameVisible i s _ h.ne_scale h.exec_eq
  obtain rfl : r = r' := (Effect.answer r).response_eq_of_on_eq_deliver s r' hr
  exact ⟨h.wf, h.ne_scale, hsame u hv⟩

/-- In a run of instructions that the start state answers, each is answered as in the start state, and nothing else changes. -/
theorem runEvents_requests_of_answers (answer : Instr → Response) (is : List Instr) (s : State)
    (h : ∀ i ∈ is, s.Answers i (answer i)) :
    runEvents (requests is) s = .next { s with inputs := [], responses := s.responses ++ is.map answer } := by
  induction is generalizing s with
  | nil => rw [List.map_nil, List.append_nil]; exact runEvents_nil s
  | cons i is ih =>
    have hi : s.Answers i (answer i) := h i List.mem_cons_self
    have hfirst : applyEvent (.request (encode i)) s = .next (s.deliver (answer i)) :=
      (runWord_encode i s hi.wf).trans hi.exec_eq
    calc runEvents (requests (i :: is)) s = runEvents (requests is) (s.deliver (answer i)) :=
          runEvents_cons _ (requests is) s _ hfirst
      _ = .next { s with inputs := [], responses := (s.responses ++ [answer i]) ++ is.map answer } :=
          ih _ fun j hj => (h j (List.mem_cons_of_mem i hj)).of_sameVisible (s.sameVisible_deliver _)
      _ = _ := by rw [List.append_assoc, List.singleton_append, List.map_cons]

/-- A full readout: one read per valid index, each answered OK. -/
theorem runEvents_readout (s : State) (read : Nat → Instr)
    (hread : ∀ k, k < s.slen → s.Answers (read k) ⟨.ok, okData s (read k)⟩) :
    runEvents (requests ((List.range s.slen).map read)) s =
      .next { s with inputs := [], responses := s.responses ++
        (List.range s.slen).map fun k => ⟨.ok, okData s (read k)⟩ } := by
  rw [runEvents_requests_of_answers (fun i => ⟨.ok, okData s i⟩), List.map_map]
  · rfl
  · simpa only [List.forall_mem_map, List.mem_range] using hread

/-- A valid index fits its field (R6, R12). -/
theorem State.Inv.fieldOk_of_lt_slen {s : State} (hs : s.Inv) {k : Nat} (hk : k < s.slen) : fieldOk k = true := by
  have hlen := hs.slen_le_eight
  exact (fieldOk_iff k).2 (by omega)

/-- Counted down from the last, the values at the indices below `n` are those in reverse order. -/
theorem map_range_countdown {α : Type} (v : Nat → α) (n : Nat) :
    (List.range n).map (fun k => v (n - 1 - k)) = ((List.range n).map v).reverse := by
  rw [← List.map_reverse, List.range_eq_range', List.reverse_range', List.map_map, List.range_eq_range', Nat.zero_add]
  rfl

/-- The valid bytes of a state that holds a SCALE are its column (R11). -/
theorem State.Holds.valid_bytes {s : State} {g : Byte} {f : Nat} (hs : s.Holds (some (g, f))) :
    (List.range s.slen).map (Memory.read s.scr) = scaleColumn g f := by
  obtain ⟨hlen, -, hcap, hbytes⟩ := hs
  rw [hlen]
  refine List.map_congr_left fun a ha => ?_
  have haf : a < f := List.mem_range.1 ha
  rw [hbytes a (by omega), columnByte, if_pos haf]

/-- Settles O29: each read of either order is valid, and the wire order counts the indices down. -/
theorem fullReadoutYieldsTheColumn : Obligations.FullReadoutYieldsTheColumn := by
  intro s hs
  refine ⟨?_, ?_, fun g f hh => hh.valid_bytes⟩
  · rw [runEvents_readout s .rdwire fun k hk => ⟨hs.fieldOk_of_lt_slen hk, nofun, execRdwire_valid s k hk hs.slen_le⟩,
      ← map_range_countdown, List.map_map]
    rfl
  · rw [runEvents_readout s .rdscr fun k hk => ⟨hs.fieldOk_of_lt_slen hk, nofun, execRdscr_valid s k hk hs.slen_le⟩,
      List.map_map]
    rfl

end Sys2Proof.Machine

/-! The composition of a glyph (44_glyph_composition.md), the host's contract: what presenting an operation hands back, what
a step sends (R87, R89), the glyph as its steps in turn (R88), and where a step's bytes land under the page-first assumption
(R91). -/

namespace Sys2Proof.Machine

/-! ### One operation presented, its response taken -/

/-- The host presents a well-formed operation, which runs, and takes the last response delivered. -/
theorem issue_of_exec {i : Instr} {s t : State} {r : Response} (hwf : i.wf = true) (hexec : exec i s = .next t)
    (hr : t.responses.getLast? = some r) : issue i s = some (r, t) := by
  have hstep : step (presentNext (encode i) s) = .next t :=
    (step_request _ _ s.inputs rfl).trans ((runWord_encode i s hwf).trans hexec)
  simp only [issue, if_pos hwf, hstep, hr, Option.map_some]

/-- An operation that only answers hands back its answer. -/
theorem issue_of_exec_deliver {i : Instr} {s : State} {r : Response} (hwf : i.wf = true)
    (hexec : exec i s = .next (s.deliver r)) : issue i s = some (r, s.deliver r) :=
  issue_of_exec hwf hexec List.getLast?_concat

/-- An accepted SCALE hands back OK. -/
theorem issue_scale_accepted (g : Byte) (f : Nat) (s : State) (hwf : (Instr.scale g f).wf = true) (h1 : 1 ≤ f)
    (h2 : f ≤ s.cfg.cap) : issue (.scale g f) s = some (⟨.ok, zext32 f⟩, scaleResult g f s) :=
  issue_of_exec hwf (execScale_accepted g f s h1 h2) List.getLast?_concat

/-- An XLATE is answered in every state, which it leaves as it was (R79). -/
theorem issue_glyphXlate (f r c j : Nat) (s : State) (hwf : (glyphXlate f r c j).wf = true) :
    ∃ rsp, issue (glyphXlate f r c j) s = some (rsp, s.deliver rsp) := by
  obtain ⟨rsp, hexec, -⟩ := xlateReadsAndWritesNoState s s r (r + f - 1) (c + j * f) (c + j * f + f - 1)
  exact ⟨rsp, issue_of_exec_deliver hwf hexec⟩

/-! ### The data bytes in wire order (R81, R87) -/

theorem extractLsb'_zextByte (b : Byte) : (zextByte b).extractLsb' 0 8 = b := by
  apply BitVec.eq_of_toNat_eq
  rw [BitVec.extractLsb'_toNat, zextByte_toNat, Nat.shiftRight_zero, Nat.mod_eq_of_lt b.isLt]

/-- RDWIRE below the factor answers the byte of the held column counted down from the last. -/
theorem execRdwire_of_holds (s : State) (g : Byte) (f k : Nat) (hs : s.Holds (some (g, f))) (hk : k < f) :
    execRdwire k s = .next (s.deliver ⟨.ok, zextByte (scaledByte g f (f - 1 - k))⟩) := by
  obtain ⟨hlen, -, hcap, hbytes⟩ := hs
  rw [execRdwire_valid s k (by omega) (by omega), hlen, hbytes _ (by omega), columnByte, if_pos (by omega)]

/-- Reading `n` wire bytes from index `k` of a held column, all below its factor. -/
theorem readWire_of_holds (g : Byte) (f n k : Nat) (s : State) (hs : s.Inv) (hh : s.Holds (some (g, f)))
    (hk : k + n ≤ f) :
    ∃ t, readWire k n s = some ((List.range' k n).map (fun i => scaledByte g f (f - 1 - i)), t) ∧ t.Inv ∧
      t.cfg = s.cfg := by
  induction n generalizing k s with
  | zero => exact ⟨s, rfl, hs, rfl⟩
  | succ n ih =>
    have hlen : s.slen = f := hh.1
    have hwf : (Instr.rdwire k).wf = true := hs.fieldOk_of_lt_slen (by omega)
    have hfirst := issue_of_exec_deliver hwf (execRdwire_of_holds s g f k hh (by omega))
    obtain ⟨t, ht, hinv, hcfg⟩ := ih (k + 1) (s.deliver ⟨.ok, zextByte (scaledByte g f (f - 1 - k))⟩)
      (hs.deliver _) (hh.deliver _) (by omega)
    refine ⟨t, ?_, hinv, hcfg⟩
    simp only [readWire, hfirst, ht, extractLsb'_zextByte, List.range'_succ, List.map_cons]

/-- Reading all wire bytes of a held column gives it in reverse order. -/
theorem readWire_column (g : Byte) (f : Nat) (s : State) (hs : s.Inv) (hh : s.Holds (some (g, f))) :
    ∃ t, readWire 0 f s = some ((scaleColumn g f).reverse, t) ∧ t.Inv ∧ t.cfg = s.cfg := by
  have hread := readWire_of_holds g f f 0 s hs hh (by omega)
  rwa [← List.range_eq_range', map_range_countdown] at hread

/-! ### One step: what it sends (R87, R89) -/

/-- A step with a response that is not OK sends nothing, and does not read the scratch space. -/
theorem composeStep_refused (h : HRepeat) {g : Byte} {f r c j : Nat} {s s1 s2 : State} {r1 r2 : Response}
    (hscale : issue (.scale g f) s = some (r1, s1)) (hxlate : issue (glyphXlate f r c j) s1 = some (r2, s2))
    (hbad : ¬ (r1.status = .ok ∧ r2.status = .ok)) : composeStep h g f r c j s = some ([], s2) := by
  simp only [composeStep, hscale, hxlate, if_neg hbad]

/-- A step with both responses OK sends the window of the one and then the bytes read back. -/
theorem composeStep_sends (h : HRepeat) {g : Byte} {f r c j : Nat} {s s1 s2 s3 : State} {r1 r2 : Response}
    {bs : List Byte} (hscale : issue (.scale g f) s = some (r1, s1))
    (hxlate : issue (glyphXlate f r c j) s1 = some (r2, s2)) (hok : r1.status = .ok ∧ r2.status = .ok)
    (hread : readWire 0 f s2 = some (bs, s3)) :
    composeStep h g f r c j s = some (windowCommands r2.data ++ (h.stream f bs).map .data, s3) := by
  simp only [composeStep, hscale, hxlate, if_pos hok, hread]

/-- Settles O48: a factor that is refused is answered with an error whatever the window is, and a factor that is accepted
leaves the window as the cause, which XLATE refuses. -/
theorem refusedStepSendsNothing : Obligations.RefusedStepSendsNothing := by
  intro s h g f r c j hs hf hwf hcause
  have hscaleWf : (Instr.scale g f).wf = true := (fieldOk_iff f).2 hf
  cases hfactor : factorError s.cfg f with
  | some e =>
    have he : e ≠ .ok := fun heq => factorError_ne_ok s.cfg f (heq ▸ hfactor)
    obtain ⟨rsp, hxlate⟩ := issue_glyphXlate f r c j (s.deliver ⟨e, 0⟩) hwf
    exact ⟨_, composeStep_refused h (issue_of_exec_deliver hscaleWf (execScale_refused g f s e hfactor)) hxlate
      fun hok => he hok.1⟩
  | none =>
    obtain ⟨h1, h2⟩ := (factorError_accepted s.cfg f).1 hfactor
    have hout : ¬ (glyphRect f r c j).inBounds = true := by
      obtain h0 | hcap | hout := hcause
      · omega
      · omega
      · exact hout
    exact ⟨_, composeStep_refused h (issue_scale_accepted g f s hscaleWf h1 h2)
      (issue_of_exec_deliver hwf (execXlate_refused _ _ _ _ _ hout)) fun hok => nomatch hok.2⟩

/-- What an accepted step sends: the column range, the page range, and the scaled bytes in wire order, `HREPEAT` times
over. -/
def stepItems (h : HRepeat) (g : Byte) (f r c j : Nat) : List BusItem :=
  .setColumnRange (BitVec.ofNat 8 (c + j * f)) (BitVec.ofNat 8 (c + j * f + f - 1)) ::
  .setPageRange (BitVec.ofNat 8 (7 - (r + f - 1))) (BitVec.ofNat 8 (7 - r)) ::
  (h.stream f (scaleColumn g f).reverse).map .data

theorem windowCommands_packData (a b c d : Nat) :
    windowCommands (packData a b c d) =
      [.setColumnRange (BitVec.ofNat 8 a) (BitVec.ofNat 8 b), .setPageRange (BitVec.ofNat 8 c) (BitVec.ofNat 8 d)] := by
  obtain ⟨ha, hb, hc, hd⟩ := packData_fields a b c d
  rw [windowCommands, ha, hb, hc, hd]

/-- The step of a source byte of a glyph that fits: SCALE and XLATE are accepted, and the column is read back whole. -/
theorem composeStep_of_fits (h : HRepeat) (g : Byte) (f r c j : Nat) (s : State) (hs : s.Inv) (h1 : 1 ≤ f)
    (h2 : f ≤ s.cfg.cap) (hfit : glyphFits f r c = true) (hj : j ≤ 7) :
    ∃ t, composeStep h g f r c j s = some (stepItems h g f r c j, t) ∧ t.Inv ∧ t.cfg = s.cfg := by
  have hcap : s.cfg.cap ≤ 8 := hs.valid.2
  have hin : (glyphRect f r c j).inBounds = true := (glyphFitsIffEveryWindowIsAccepted f r c h1).1 hfit j hj
  obtain ⟨hrow, hcol⟩ := (glyphRect_inBounds_iff f r c j h1).1 hin
  have hscale := issue_scale_accepted g f s ((fieldOk_iff f).2 (by omega)) h1 h2
  have hxlate := issue_of_exec_deliver ((glyphXlate_wf_iff f r c j h1).2 ⟨by omega, by omega⟩)
    (execXlate_accepted _ _ _ _ (scaleResult g f s) hin)
  obtain ⟨t, hread, hinv, hcfg⟩ := readWire_column g f _ ((scaleResult_inv g f s hs.valid h2).deliver _)
    ((scaleResult_holds g f s h1 h2).deliver _)
  refine ⟨t, ?_, hinv, hcfg⟩
  rw [composeStep_sends h hscale hxlate ⟨rfl, rfl⟩ hread, windowCommands_packData]
  rfl

/-! ### A whole glyph: its steps in turn (R88) -/

/-- From source byte `j` on, the steps of the remaining source bytes one after another. -/
theorem composeGlyph_of_fits (h : HRepeat) (f r c j : Nat) (gs : List Byte) (s : State) (hs : s.Inv) (h1 : 1 ≤ f)
    (h2 : f ≤ s.cfg.cap) (hfit : glyphFits f r c = true) (hj : j + gs.length ≤ 8) :
    ∃ t, composeGlyph h f r c j gs s = some ((gs.zipIdx j).flatMap (fun p => stepItems h p.1 f r c p.2), t) := by
  induction gs generalizing j s with
  | nil => exact ⟨s, rfl⟩
  | cons g gs ih =>
    rw [List.length_cons] at hj
    obtain ⟨u, hu, hinv, hcfg⟩ := composeStep_of_fits h g f r c j s hs h1 h2 hfit (by omega)
    obtain ⟨t, ht⟩ := ih (j + 1) u hinv (hcfg ▸ h2) (by omega)
    exact ⟨t, by simp only [composeGlyph, hu, ht, List.zipIdx_cons, List.flatMap_cons]⟩

/-- Settles O50: every step is accepted, and leaves a state from which the next one is. -/
theorem glyphWindowsAndDataInterleave : Obligations.GlyphWindowsAndDataInterleave :=
  fun s h f r c gs hs h1 h2 hfit hlen => composeGlyph_of_fits h f r c 0 gs s hs h1 h2 hfit (by omega)

/-! ### Where the bytes land (R91) -/

/-- Data bytes land one after another at the places the cursor counts through. -/
theorem placeItems_map_data (k : Cursor) (bs : List Byte) :
    placeItems k (bs.map .data) = (bs.zipIdx k.taken).map fun p =>
      ⟨({ k with taken := p.2 } : Cursor).place.1, ({ k with taken := p.2 } : Cursor).place.2, p.1⟩ := by
  induction bs generalizing k with
  | nil => rfl
  | cons b bs ih => rw [List.map_cons, placeItems_data, ih, List.zipIdx_cons, List.map_cons]

/-- The cursor in the window of source byte `j`, `m` data bytes taken. -/
def glyphCursor (f r c j m : Nat) : Cursor := ⟨c + j * f, c + j * f + f - 1, 7 - (r + f - 1), 7 - r, m⟩

/-- The window is `f` columns of `f` pages, filled column by column. -/
theorem place_glyphCursor (f r c j m : Nat) (h1 : 1 ≤ f) (hrow : r + f - 1 ≤ 7) (hm : m < f * f) :
    (glyphCursor f r c j m).place = (c + j * f + m / f, 7 - (r + f - 1) + m % f) := by
  have hcol : c + j * f + m / f ≤ c + j * f + f - 1 :=
    Nat.le_sub_one_of_lt (Nat.add_lt_add_left (Nat.div_lt_of_lt_mul hm) _)
  have hheight : 7 - r - (7 - (r + f - 1)) + 1 = f := by omega
  have hwithin := Cursor.place_within (glyphCursor f r c j m)
  simp only [glyphCursor, hheight] at hwithin
  exact hwithin hcol

/-- Byte `m` of the data of a step lands in column `m / f` and on page `m % f` of its window. -/
theorem placed_stepItems (h : HRepeat) (g : Byte) (f r c j : Nat) (h1 : 1 ≤ f)
    (hin : (glyphRect f r c j).inBounds = true) :
    placed (stepItems h g f r c j) = ((h.stream f (scaleColumn g f).reverse).zipIdx).map fun p =>
      ⟨c + j * f + p.2 / f, 7 - (r + f - 1) + p.2 % f, p.1⟩ := by
  obtain ⟨hrow, hcol⟩ := (glyphRect_inBounds_iff f r c j h1).1 hin
  have hwindow : placed (stepItems h g f r c j) =
      placeItems (glyphCursor f r c j 0) ((h.stream f (scaleColumn g f).reverse).map .data) := by
    simp only [placed, stepItems, placeItems_setColumnRange, placeItems_setPageRange, glyphCursor]
    rw [toNat_ofNat_of_fieldOk, toNat_ofNat_of_fieldOk, toNat_ofNat_of_fieldOk, toNat_ofNat_of_fieldOk] <;>
      exact (fieldOk_iff _).2 (by omega)
  rw [hwindow, placeItems_map_data]
  refine List.map_congr_left fun p hp => ?_
  have hlt := List.snd_lt_of_mem_zipIdx hp
  rw [HRepeat.length_stream, List.length_reverse, length_scaleColumn] at hlt
  have hm : p.2 < f * f := hlt.trans_le (Nat.mul_le_mul_right f (h.count_le f h1))
  have hplace := place_glyphCursor f r c j p.2 h1 hrow hm
  simp only [glyphCursor] at hplace ⊢
  rw [hplace]

/-- Repeating a list of length `f`, entry `k` of repetition `q` is entry `k` of the list. -/
theorem getElem?_flatten_replicate {α : Type} (bs : List α) (n q k : Nat) (hq : q < n) (hk : k < bs.length) :
    (List.replicate n bs).flatten[q * bs.length + k]? = bs[k]? := by
  induction n generalizing q with
  | zero => omega
  | succ n ih =>
    rw [List.replicate_succ, List.flatten_cons]
    cases q with
    | zero => rw [Nat.zero_mul, Nat.zero_add, List.getElem?_append_left hk]
    | succ q =>
      rw [Nat.succ_mul, Nat.add_right_comm, List.getElem?_append_right (Nat.le_add_left _ _), Nat.add_sub_cancel]
      exact ih q (by omega)

/-- In repetition `q` of a column in wire order, scratch byte `i` is the one with wire index `f - 1 - i` (R81). -/
theorem getElem?_stream_reverse (h : HRepeat) (g : Byte) (f i q : Nat) (hi : i < f) (hq : q < h.count f) :
    (h.stream f (scaleColumn g f).reverse)[q * f + (f - 1 - i)]? = some (scaledByte g f i) := by
  have hlen : (scaleColumn g f).reverse.length = f := by rw [List.length_reverse, length_scaleColumn]
  calc (h.stream f (scaleColumn g f).reverse)[q * f + (f - 1 - i)]?
      = (scaleColumn g f).reverse[f - 1 - i]? := by
        have hrep := getElem?_flatten_replicate (scaleColumn g f).reverse (h.count f) q (f - 1 - i) hq (by omega)
        rwa [hlen] at hrep
    _ = (scaleColumn g f)[i]? := by
        rw [List.getElem?_reverse (by rw [length_scaleColumn]; omega), length_scaleColumn,
          Nat.sub_sub_self (by omega : i ≤ f - 1)]
    _ = some (scaledByte g f i) := getElem?_scaleColumn g f i hi

/-- Settles O49: byte `m` of the data lands in column `m / f` of the window and on its page `m % f`, so the wire order puts
the last scratch byte on the first page, which is the bottom row. -/
theorem composedBytesLandOnTheirRows : Obligations.ComposedBytesLandOnTheirRows := by
  intro s h g f r c j hs h1 h2 hfit hj
  have hin : (glyphRect f r c j).inBounds = true := (glyphFitsIffEveryWindowIsAccepted f r c h1).1 hfit j hj
  obtain ⟨hrow, hcol⟩ := (glyphRect_inBounds_iff f r c j h1).1 hin
  have hlen : (h.stream f (scaleColumn g f).reverse).length = h.count f * f := by
    rw [HRepeat.length_stream, List.length_reverse, length_scaleColumn]
  obtain ⟨t, ht, -⟩ := composeStep_of_fits h g f r c j s hs h1 h2 hfit hj
  refine ⟨_, t, ht, ?_⟩
  rw [placed_stepItems h g f r c j h1 hin]
  refine ⟨by rw [List.length_map, List.length_zipIdx, hlen], fun i q hi hq => ?_, fun p hp => ?_⟩
  · have hmem := List.mk_mem_zipIdx_iff_getElem?.2 (getElem?_stream_reverse h g f i q hi hq)
    refine List.mem_map.2 ⟨_, hmem, ?_⟩
    have hdiv : (q * f + (f - 1 - i)) / f = q := Nat.div_eq_of_lt_le (by omega) (by rw [Nat.succ_mul]; omega)
    have hmod : (q * f + (f - 1 - i)) % f = f - 1 - i := by
      rw [Nat.mul_add_mod_self_right, Nat.mod_eq_of_lt (by omega)]
    rw [hdiv, hmod, logicalRowToNativePage_eq]
    congr 1
    omega
  · obtain ⟨⟨b, m⟩, hm, rfl⟩ := List.mem_map.1 hp
    have hlt : m < h.count f * f := hlen ▸ List.snd_lt_of_mem_zipIdx hm
    have hdiv : m / f < f := (Nat.div_lt_of_lt_mul (Nat.mul_comm f _ ▸ hlt)).trans_le (h.count_le f h1)
    have hmod : m % f < f := Nat.mod_lt m h1
    have hleft : c + j * f ≤ c + j * f + m / f := Nat.le_add_right _ _
    dsimp only
    omega

end Sys2Proof.Machine

/-! The errors (60_exceptions.md): the one status a request is answered with, read off the request word, `CAP` and `SLEN`
before the request runs, and what an error leaves: everything, so that it repeats. -/

namespace Sys2Proof.Machine

/-! ### An error changes nothing and repeats (R96, R98) -/

/-- Only a response that changes nothing else can be an error: an accepted SCALE is answered OK. -/
theorem Effect.eq_answer_of_not_ok (e : Effect) (h : e.response.status ≠ .ok) : e = .answer e.response := by
  cases e with
  | answer r => rfl
  | column g f => exact absurd rfl h

/-- A request word whose response is an error delivers that response, without data, to every state with the same visible
part, and changes nothing else. -/
theorem runWord_error_sameVisible (w : Word40) (s t : State) (r : Response) (h : runWord w s = .next t)
    (hr : t.responses = s.responses ++ [r]) (herr : r.status ≠ .ok) :
    t = s.deliver r ∧ ∀ u, s.SameVisible u → runWord w u = .next (u.deliver r) := by
  have effect (u : State) (hv : s.SameVisible u) : t = s.deliver r ∧ runWord w u = .next (u.deliver r) := by
    obtain ⟨e, rfl, hu⟩ := hv.runWord_effect w h
    obtain rfl : e.response = r := List.singleton_inj.1 (List.append_cancel_left ((e.on_responses s).symm.trans hr))
    rw [e.eq_answer_of_not_ok herr] at hu ⊢
    exact ⟨rfl, hu⟩
  exact ⟨(effect s ⟨rfl, rfl, fun _ _ => rfl⟩).1, fun u hv => (effect u hv).2⟩

/-- Settles O44: a response delivered is nothing a request can read, so the request is answered as before. -/
theorem errorsChangeNothingAndRepeat : Obligations.ErrorsChangeNothingAndRepeat := by
  intro s t w r h hr herr
  obtain ⟨rfl, hrepeat⟩ := runWord_error_sameVisible w s t r h hr herr
  refine ⟨?_, rfl, hrepeat _ (s.sameVisible_deliver r)⟩
  obtain ⟨r', hr', hdata, -⟩ | ⟨g, f, -, -, -, hcol⟩ := runWord_cases w s _ h
  · obtain rfl : r = r' := (Effect.answer r).response_eq_of_on_eq_deliver s r' hr'
    exact hdata herr
  · obtain rfl : ⟨.ok, zext32 f⟩ = r := (Effect.column g f).response_eq_of_on_eq_deliver s r hcol.symm
    exact absurd rfl herr

/-! ### The status of a request (R94, R97) -/

/-- The status an operation is answered with, read off `CAP`, `SLEN` and its operands. -/
def execStatus (s : State) : Instr → Status
  | .scale _ f => if f = 0 then .invalidFactor else if s.cfg.cap < f then .capacityExceeded else .ok
  | .xlate rs re cs ce => if rs ≤ re ∧ re ≤ 7 ∧ cs ≤ ce ∧ ce ≤ 127 then .ok else .outOfBounds
  | .rdscr i | .rdwire i => if s.slen ≤ i then .invalidIndex else .ok
  | .rdlen | .rdcap => .ok

/-- An operation is answered with its status: OK with its result, or an error that changes nothing. -/
theorem exec_ok_or_error_of_execStatus (i : Instr) (s : State) (hlen : s.slen ≤ s.cfg.cap) :
    (execStatus s i = .ok ∧ exec i s = .next (okState s i)) ∨
    (∃ e, execStatus s i = e ∧ e ≠ .ok ∧ exec i s = .next (s.deliver ⟨e, 0⟩)) := by
  cases i with
  | scale g f =>
    obtain ⟨h0, h⟩ | ⟨h1, h2, h⟩ | ⟨h1, h2, h⟩ := execScale_cases g f s
    · exact .inr ⟨_, if_pos h0, nofun, h⟩
    · exact .inr ⟨_, (if_neg (Nat.ne_zero_of_lt h1)).trans (if_pos h2), nofun, h⟩
    · exact .inl ⟨(if_neg (Nat.ne_zero_of_lt h1)).trans (if_neg (Nat.not_lt.2 h2)), h⟩
  | xlate rs re cs ce =>
    have hbounds := CursorRect.inBounds_iff ⟨rs, re, cs, ce⟩
    by_cases hb : CursorRect.inBounds ⟨rs, re, cs, ce⟩ = true
    · exact .inl ⟨if_pos (hbounds.1 hb), execXlate_accepted rs re cs ce s hb⟩
    · exact .inr ⟨_, if_neg (mt hbounds.2 hb), nofun, execXlate_refused rs re cs ce s hb⟩
  | rdscr a =>
    obtain ha | ha := Nat.lt_or_ge a s.slen
    · exact .inl ⟨if_neg (Nat.not_le.2 ha), execRdscr_valid s a ha hlen⟩
    · exact .inr ⟨_, if_pos ha, nofun, execRdscr_refused s a ha⟩
  | rdwire k =>
    obtain hk | hk := Nat.lt_or_ge k s.slen
    · exact .inl ⟨if_neg (Nat.not_le.2 hk), execRdwire_valid s k hk hlen⟩
    · exact .inr ⟨_, if_pos hk, nofun, execRdwire_refused s k hk⟩
  | rdlen => exact .inl ⟨rfl, rfl⟩
  | rdcap => exact .inl ⟨rfl, rfl⟩

/-- An operation completes with one response, of its status, and an error carries no data. -/
theorem exec_answers_execStatus (i : Instr) (s : State) (hlen : s.slen ≤ s.cfg.cap) :
    ∃ t d, exec i s = .next t ∧ t.responses = s.responses ++ [⟨execStatus s i, d⟩] ∧ (execStatus s i ≠ .ok → d = 0) := by
  obtain ⟨hst, h⟩ | ⟨e, hst, -, h⟩ := exec_ok_or_error_of_execStatus i s hlen
  · rw [hst]
    exact ⟨_, okData s i, h, okState_responses s i, absurd rfl⟩
  · rw [hst]
    exact ⟨_, 0, h, rfl, fun _ => rfl⟩

/-! ### The cause of each error (R97) -/

theorem execStatus_eq_capacityExceeded_iff (s : State) (i : Instr) :
    execStatus s i = .capacityExceeded ↔ ∃ g f, i = .scale g f ∧ 1 ≤ f ∧ s.cfg.cap < f := by
  cases i with
  | scale g f => simp [execStatus, ite_eq_iff, Nat.one_le_iff_ne_zero]
  | _ => simp [execStatus, ite_eq_iff]

theorem execStatus_eq_outOfBounds_iff (s : State) (i : Instr) : execStatus s i = .outOfBounds ↔
    ∃ rs re cs ce, i = .xlate rs re cs ce ∧ ¬ (rs ≤ re ∧ re ≤ 7 ∧ cs ≤ ce ∧ ce ≤ 127) := by
  cases i with
  | _ => simp [execStatus, ite_eq_iff]

theorem execStatus_eq_invalidFactor_iff (s : State) (i : Instr) :
    execStatus s i = .invalidFactor ↔ ∃ g, i = .scale g 0 := by
  cases i with
  | _ => simp [execStatus, ite_eq_iff]

theorem execStatus_eq_invalidIndex_iff (s : State) (i : Instr) :
    execStatus s i = .invalidIndex ↔ ∃ a, (i = .rdscr a ∨ i = .rdwire a) ∧ s.slen ≤ a := by
  cases i with
  | _ => simp [execStatus, ite_eq_iff]

theorem execStatus_ne_illegalOperation (s : State) (i : Instr) : execStatus s i ≠ .illegalOperation := by
  cases i with
  | _ => simp [execStatus, ite_eq_iff]

/-- A word decodes exactly where it matches a row. -/
theorem decode_ok_iff_mask (w : Word40) : (∃ i, decode w = .ok i) ↔ ∃ op : Op, w &&& op.maskBits = op.matchBits := by
  simp only [← selects_iff_mask, ← decodes_to_op_iff]
  exact ⟨fun ⟨i, hd⟩ => ⟨i.op, i, hd, rfl⟩, fun ⟨_, i, hd, _⟩ => ⟨i, hd⟩⟩

theorem Status.code_le_five (st : Status) : st.code.toNat ≤ 5 :=
  (Status.ofCode_isSome_iff st.code).1 (by rw [Status.ofCode_code]; rfl)

/-- Settles O9: a word that decodes is answered with the status of its operation, which is an error exactly on its cause;
only a word that does not decode is answered `IllegalOperation`. -/
theorem eachStatusHasExactlyItsCause : Obligations.EachStatusHasExactlyItsCause := by
  refine ⟨rfl, fun s w es hs hin => ?_⟩
  have hstep := step_request s w es hin
  have hmatch := decode_ok_iff_mask w
  cases hd : decode w with
  | ok i =>
    rw [runWord_of_decode w i _ hd] at hstep
    obtain ⟨t, d, ht, hresp, hdata⟩ := exec_answers_execStatus i (s.setInputs es) hs.slen_le
    simp only [Except.ok.injEq]
    obtain ⟨op, hop⟩ := hmatch.1 ⟨i, hd⟩
    exact ⟨t, _, hstep.trans ht, hresp, execStatus_eq_capacityExceeded_iff _ i, execStatus_eq_outOfBounds_iff _ i,
      execStatus_eq_invalidFactor_iff _ i, execStatus_eq_invalidIndex_iff _ i,
      ⟨fun hill => absurd hill (execStatus_ne_illegalOperation _ i), fun hno => absurd hop (hno op)⟩,
      hdata, Status.code_le_five _⟩
  | error e =>
    have hno : ∀ op : Op, w &&& op.maskBits ≠ op.matchBits := by simpa [hd] using hmatch
    exact ⟨_, ⟨.illegalOperation, 0⟩, hstep.trans (runWord_of_illegal w e _ hd), rfl, by simp, by simp, by simp, by simp,
      ⟨fun _ => hno, fun _ => rfl⟩, fun _ => rfl, Status.code_le_five _⟩

end Sys2Proof.Machine

/-! Reset and runs (70_reset_and_hazards.md): what is readable before the first successful SCALE, and the observation of a
run, which is followed input by input in two blocks that differ at most in what is delivered and what is presented. -/

namespace Sys2Proof.Machine

/-! ### Before the first successful SCALE (R112) -/

/-- No SCALE has become the most recent successful one where every SCALE presented has a factor that is refused. -/
theorem foldl_track_eq_none (c : Config) (es : List Event)
    (h : ∀ w g f, Event.request w ∈ es → decode w = .ok (.scale g f) → f = 0 ∨ c.cap < f) :
    es.foldl (track c) none = none := by
  induction es with
  | nil => rfl
  | cons e es ih =>
    have hrest : es.foldl (track c) none = none := ih fun w g f hw => h w g f (List.mem_cons_of_mem e hw)
    cases e with
    | request w =>
      have hkeep : track c none (.request w) = none :=
        track_not_accepted c none w fun g f hd => by
          have := h w g f List.mem_cons_self hd
          omega
      rw [List.foldl_cons, hkeep, hrest]
    | reset => exact hrest

/-- Settles O38: after the sequence the block still holds no SCALE, so `SLEN` is 0 and every index is at or above it. -/
theorem nothingIsReadableBeforeTheFirstScale : Obligations.NothingIsReadableBeforeTheFirstScale := by
  intro s es hs h0 href
  obtain ⟨t, ht, -, hholds⟩ := runHoldsTheMostRecentSuccessfulScale s none es hs h0
  rw [foldl_track_eq_none s.cfg es href] at hholds
  have hlen : t.slen = 0 := hholds
  have hindex (i : Nat) : t.slen ≤ i := hlen ▸ Nat.zero_le i
  refine ⟨t, ht, hlen, fun i => execRdscr_refused t i (hindex i), fun k => execRdwire_refused t k (hindex k), ?_⟩
  calc exec .rdlen t = .next (t.deliver ⟨.ok, zext32 t.slen⟩) := rfl
    _ = .next (t.deliver ⟨.ok, 0⟩) := by rw [hlen]; rfl

/-! ### Two blocks side by side (R16, R20) -/

/-- `u` is `s` in everything but the inputs still to come and the responses delivered. -/
structure State.SameBlock (s u : State) : Prop where
  cfg : u.cfg = s.cfg
  scr : u.scr = s.scr
  slen : u.slen = s.slen
  draws : u.draws = s.draws

namespace State.SameBlock

theorem refl (s : State) : s.SameBlock s := ⟨rfl, rfl, rfl, rfl⟩

theorem sameVisible {s u : State} (h : s.SameBlock u) : s.SameVisible u := ⟨h.cfg, h.slen, fun _ _ => h.scr ▸ rfl⟩

theorem setInputs {s u : State} (h : s.SameBlock u) (es : List Event) : (s.setInputs es).SameBlock (u.setInputs es) :=
  ⟨h.cfg, h.scr, h.slen, h.draws⟩

/-- An accepted SCALE writes the same column into both blocks. -/
theorem after_effect {s u : State} (h : s.SameBlock u) (e : Effect) : (e.on s).SameBlock (e.on u) := by
  cases e with
  | answer r => exact ⟨h.cfg, h.scr, h.slen, h.draws⟩
  | column g f => exact ⟨h.cfg, rfl, rfl, h.draws⟩

/-- The free bytes of a reset depend on `CAP` and on the draw counter alone. -/
theorem after_reset {s u : State} (h : s.SameBlock u) : (applyReset s).SameBlock (applyReset u) :=
  ⟨h.cfg, by rw [applyReset_scr, applyReset_scr, h.cfg, h.draws], rfl, congrArg (· + 1) h.draws⟩

/-- One input delivers the same responses from both blocks, and leaves them the same. -/
theorem after_event {s u t : State} (h : s.SameBlock u) (e : Event) (ht : applyEvent e s = .next t) :
    ∃ v new, applyEvent e u = .next v ∧ t.SameBlock v ∧
      t.responses = s.responses ++ new ∧ v.responses = u.responses ++ new := by
  cases e with
  | request w =>
    obtain ⟨e, rfl, hu⟩ := h.sameVisible.runWord_effect w ht
    exact ⟨e.on u, [e.response], hu, h.after_effect e, e.on_responses s, e.on_responses u⟩
  | reset =>
    obtain rfl := Host.Outcome.next.inj ht
    exact ⟨_, [], rfl, h.after_reset, (List.append_nil _).symm, (List.append_nil _).symm⟩

/-- The same of a run, by induction over its inputs. -/
theorem after_run {s u : State} (h : s.SameBlock u) (es : List Event) (hs : s.Inv) :
    ∃ t v new, runEvents es s = .next t ∧ runEvents es u = .next v ∧ t.SameBlock v ∧
      t.responses = s.responses ++ new ∧ v.responses = u.responses ++ new := by
  induction es generalizing s u with
  | nil =>
    exact ⟨_, _, [], runEvents_nil s, runEvents_nil u, h.setInputs [], (List.append_nil _).symm,
      (List.append_nil _).symm⟩
  | cons e es ih =>
    obtain ⟨s', hs'⟩ := applyEvent_completes e s hs.slen_le
    obtain ⟨u', new, hu', h', hsnew, hunew⟩ := h.after_event e hs'
    obtain ⟨t, v, more, ht, hv, hsame, htmore, hvmore⟩ := ih h' (applyEvent_keeps_inv e s s' hs hs')
    refine ⟨t, v, new ++ more, (runEvents_cons e es s s' hs').trans ht, (runEvents_cons e es u u' hu').trans hv, hsame,
      ?_, ?_⟩
    · rw [htmore, hsnew, List.append_assoc]
    · rw [hvmore, hunew, List.append_assoc]

theorem scrBytes {s u : State} (h : s.SameBlock u) : u.scrBytes = s.scrBytes := by
  rw [State.scrBytes, State.scrBytes, h.cfg, h.scr]

end State.SameBlock

/-! ### The observation of a run (R120) -/

/-- A run ends with its last request, and so has all the requests of its sequence. -/
theorem countP_requests_runInputs (es : List Event) :
    (runInputs es).countP (fun e => decide (e ≠ .reset)) = es.countP (fun e => decide (e ≠ .reset)) := by
  induction es with
  | nil => rfl
  | cons e es ih =>
    cases e with
    | request w => rw [runInputs_request, List.countP_cons, List.countP_cons, ih]
    | reset =>
      rw [List.countP_cons_of_neg (by simp), ← ih]
      cases hr : runInputs es with
      | nil => simp [runInputs, hr]
      | cons d ds => simp [runInputs, hr]

theorem observeRun_concat_reset (es : List Event) (s : State) : observeRun (es ++ [.reset]) s = observeRun es s := by
  rw [observeRun, runInputs_concat_reset, observeRun]

/-- A completed run observes the responses after those delivered before. -/
theorem observeRun_of_responses (es : List Event) (s t : State) (new : List Response)
    (h : runEvents (runInputs es) s = .next t) (hnew : t.responses = s.responses ++ new) :
    observeRun es s = .next ⟨new, t.scrBytes, t.slen⟩ := by
  rw [observeRun_next es s t h, State.observe, hnew, List.drop_left]

theorem runEvents_keeps_cfg (es : List Event) (s t : State) (hs : s.Inv) (h : runEvents es s = .next t) :
    t.cfg = s.cfg := by
  induction es generalizing s with
  | nil =>
    obtain rfl := Host.Outcome.next.inj h
    rfl
  | cons e es ih =>
    obtain ⟨u, hu⟩ := applyEvent_completes e s hs.slen_le
    calc t.cfg = u.cfg := ih u (applyEvent_keeps_inv e s u hs hu) ((runEvents_cons e es s u hu).symm.trans h)
      _ = s.cfg := applyEvent_keeps_cfg e s u hu

/-- A run delivers one response per request. -/
theorem runEvents_responses_length (es : List Event) (s t : State) (hs : s.Inv) (h : runEvents es s = .next t) :
    t.responses.length = s.responses.length + es.countP (fun e => decide (e ≠ .reset)) := by
  obtain ⟨t', ht', -, hlen⟩ := requestsTakeEffectInOrder s es [] hs
  obtain rfl := Host.Outcome.next.inj (h.symm.trans ht')
  exact hlen

theorem getElem?_scrBytes (s : State) (i : Nat) (hi : i < s.cfg.cap) : s.scrBytes[i]? = some (Memory.read s.scr i) := by
  simp [State.scrBytes, hi]

/-- Blocks that start the same are observed the same. -/
theorem State.SameBlock.observeRun_eq {s u : State} (h : s.SameBlock u) (es : List Event) (hs : s.Inv) :
    observeRun es u = observeRun es s := by
  obtain ⟨t, v, new, ht, hv, hend, hnew, hvnew⟩ := h.after_run (runInputs es) hs
  rw [observeRun_of_responses es s t new ht hnew, observeRun_of_responses es u v new hv hvnew, hend.scrBytes, hend.slen]

/-- Settles O51: the run's own responses and its final `(SCR, SLEN)` are those of every block that starts the same. -/
theorem runObservesItsOwnResponses : Obligations.RunObservesItsOwnResponses := by
  intro s es hs
  obtain ⟨t, -, new, ht, -, -, hnew, -⟩ := (State.SameBlock.refl s).after_run (runInputs es) hs
  have hobs := observeRun_of_responses es s t new ht hnew
  have hcfg := runEvents_keeps_cfg (runInputs es) s t hs ht
  refine ⟨_, hobs, ?_, (observeRun_concat_reset es s).trans hobs, fun u hc hm hl hd => ?_, fun a w ha => ?_⟩
  · have hlen := runEvents_responses_length (runInputs es) s t hs ht
    rw [hnew, List.length_append, countP_requests_runInputs] at hlen
    exact Nat.add_left_cancel hlen
  · have hu : s.SameBlock u := ⟨hc, hm, hl, hd⟩
    exact (hu.observeRun_eq es hs).trans hobs
  · have hrun : runInputs es = es := by rw [ha, runInputs_concat_request]
    rw [hrun] at ht
    exact ⟨t, ht, hnew, rfl, by simp [State.scrBytes, hcfg], fun i hi => getElem?_scrBytes t i (hcfg ▸ hi)⟩

end Sys2Proof.Machine
